-- ==== Sys2Proof/Word.lean ====
section
/-!
DEFINITION. The plain value types of the block: bytes, codes, operator words, channel ids, the result type of the
math unit, operation labels and their reading, and the entries of a schedule (00_scope.md R12 to R14, 30_encoding.md
R90 to R98).
-/

namespace Sys2Proof

/-- A byte of the wire or of a label (R12). -/
abbrev Byte := BitVec 8

/-- A raw sample, 10 bits, in [0, 1023] (R12, R17). -/
abbrev Code := BitVec 10

/-- The operator word `ctl` of a derived channel, 3 bits (R92). -/
abbrev Ctl := BitVec 3

/-- A result of the math unit: a finite rational or one of the two infinities (R14, R200). -/
inductive XVal where
  | fin (q : Rat)
  | posInf
  | negInf
deriving DecidableEq, Repr

/-- The four samples of a packet, `s0` the first converted (R90, R64). -/
structure Quad where
  s0 : Code
  s1 : Code
  s2 : Code
  s3 : Code
deriving DecidableEq, Repr

/-- An operation label before it is decoded: an opcode and argument naturals, of any number and size (R95, R96). -/
structure Label where
  opcode : Byte
  args   : List Nat
deriving DecidableEq, Repr

/-- What an argument of a label is (R96): a sample code, an operator word or a channel id. -/
inductive ArgKind where
  | sample
  | ctl
  | chan
deriving DecidableEq, Repr

/-- Why the label decoder refuses (R96, R97, R98). -/
inductive Reject where
  /-- The opcode is one R97 reserves. -/
  | reservedOpcode
  /-- The byte form ends before the length its opcode fixes (R98). -/
  | truncated
  /-- The label has not the arguments its opcode takes (R95). -/
  | wrongArguments
  /-- A sample argument exceeds 1023, which in byte form is a nonzero must-be-zero bit (R96, R98). -/
  | sampleOutOfRange
  /-- An operator word exceeds 7, which in byte form is a nonzero must-be-zero bit (R96, R98). -/
  | ctlOutOfRange
deriving DecidableEq, Repr

/-- The encoding of one table row: a label's byte form (OP8, R98) or an operator word (CTL3, R92). -/
inductive Encoding where
  | bytes (bs : List Byte)
  | operator (ctl : Ctl)
deriving DecidableEq, Repr

/-- One entry of the schedule. DESIGN CHOICE (log entries 4 and 7; safe): the spec's schedule is a list of labels (R263),
written in bytes (R98) or, where an id has no byte form, as opcode and arguments (R96); an operator word with its
operand pair is the model's own entry. -/
inductive Slot where
  /-- One byte of a label's byte form. -/
  | byte (b : Byte)
  /-- A whole label given by its opcode and argument naturals. -/
  | label (l : Label)
  /-- A point-wise operator applied to the pair (A, B). -/
  | operator (ctl : Ctl) (a b : Rat)
deriving DecidableEq, Repr

end Sys2Proof
end

