-- ==== Sys2Proof/Config.lean ====
section
/-!
DEFINITION. The configuration of the block (00_scope.md R8 to R11, 70_reset_and_hazards.md R283): the constants the source
fixes, the parameters it leaves open, and, for the open ones, constants with no body, of which nothing can be proved.
-/

namespace Sys2Proof

/-- Bits of a sample (R8). -/
abbrev sampleBits : Nat := 10
/-- Samples in a packet (R8). -/
abbrev samplesPerPacket : Nat := 4
/-- Bytes in a packet (R8). -/
abbrev packetBytes : Nat := 5
/-- The wire's fixed rate (R8). -/
abbrev baud : Nat := 250000
/-- Physical channels (R8, R30). -/
abbrev physicalChannels : Nat := 2
/-- The most derived channels that exist at once (R8, R32). -/
abbrev maxDerived : Nat := 3
/-- The highest nesting depth of a channel's derivation (R8). -/
abbrev maxMathLevel : Nat := 1

/-- The ADC clock divider, a build-time constant; it fixes timing only (R9, R23). -/
inductive ClkDiv where
  | by128
  | by64
  | by32
  | by16
deriving DecidableEq, Repr

/-- The divisor itself (R9). -/
def ClkDiv.divisor : ClkDiv → Nat
  | .by128 => 128
  | .by64 => 64
  | .by32 => 32
  | .by16 => 16

/-- A verdict of the plausibility detector (R157). -/
inductive Verdict where
  | plausible
  | implausible
deriving DecidableEq, Repr

/-- What a detector may look at (R157, D36): the window, the queue, the owner's buffer and the counter. -/
structure DetectContext where
  asm         : List Byte
  queue       : List Code
  ownerBuf    : List Rat
  desyncCount : Nat
deriving DecidableEq, Repr

/-- The verdicts a total detector admits for one context (R157): never none of them. -/
inductive Judgement where
  | onlyPlausible
  | onlyImplausible
  | bothVerdicts
deriving DecidableEq, Repr, Inhabited

/-- Whether a judgement admits a verdict (R157). -/
def Judgement.admits : Judgement → Verdict → Bool
  | .onlyPlausible, .plausible => true
  | .onlyPlausible, .implausible => false
  | .onlyImplausible, .plausible => false
  | .onlyImplausible, .implausible => true
  | .bothVerdicts, _ => true

/-- The parameter `DESYNC_DETECT` (R10, R157, D10). -/
inductive Detector where
  /-- `NEVER`: every window is plausible and the decoder never slips. -/
  | never
  /-- `ANY`: both verdicts hold for every window. -/
  | any
  /-- A total relation written out: the listed contexts with their judgements, and one judgement for all others. -/
  | table (others : Judgement) (rows : List (DetectContext × Judgement))
  /-- Some other total relation, the `n`-th of an unknown family (log entry 3). -/
  | heuristic (n : Nat)
deriving DecidableEq, Repr

/-- The unknown family of detectors: an uninterpreted function, total because every judgement admits a verdict (R157, I1;
log entry 3; safe). -/
opaque Config.judge : Nat → DetectContext → Judgement

/-- The parameters of R9 to R11, carried by State as a constant (log entry 1; safe). -/
structure Config where
  /-- `SAMPLE_BUFFER_DEPTH`, at least 1 (R10). -/
  sampleBufferDepth : Nat
  /-- `HOST_QUEUE_DEPTH`, at least 1 (R10). -/
  hostQueueDepth    : Nat
  /-- `GAIN_LSB` (R10, R161). -/
  gainLsb           : Rat
  /-- `GAIN_OFFSET` (R10, R161). -/
  gainOffset        : Rat
  /-- `OWNER`, the physical channel the decoded stream feeds (R10, D7). -/
  owner             : Fin 2
  /-- `DESYNC_DETECT` (R10, R157). -/
  desyncDetect      : Detector
  /-- `RECOMPUTE_ATOMIC` (R10, D19). -/
  recomputeAtomic   : Bool
  /-- `CLKDIV`; no rule reads it (R9). -/
  clkDiv            : ClkDiv
  /-- The host's `baud_rate` setting, which must equal the wire's (R11). -/
  baudRate          : Nat
  /-- The host's `serial_port` setting; it has no effect (R11). -/
  serialPort        : String
deriving DecidableEq, Repr

/-- What R10 and R11 require of a configuration. -/
abbrev Config.wf (c : Config) : Prop :=
  1 ≤ c.sampleBufferDepth ∧ 1 ≤ c.hostQueueDepth ∧ c.baudRate = baud

/-- Open (I4): one less than the `SAMPLE_BUFFER_DEPTH` of the machine at power-on (log entry 2). -/
opaque Config.sampleBufferDepthLessOne : Nat
/-- Open (I5): one less than the `HOST_QUEUE_DEPTH` of the machine at power-on (log entry 2). -/
opaque Config.hostQueueDepthLessOne : Nat
/-- Open (I6): the machine's `GAIN_LSB` (log entry 2). -/
opaque Config.machineGainLsb : Rat
/-- Open (I6): the machine's `GAIN_OFFSET` (log entry 2). -/
opaque Config.machineGainOffset : Rat
/-- Open (R11): the machine's `serial_port` (log entry 2). -/
opaque Config.machineSerialPort : String

/-- The configuration the machine is built and launched with: the values R9, R10, R11, D7 and D19 decide, and the
constants above where the spec leaves the value open (log entry 2; safe). -/
def Config.launch : Config where
  sampleBufferDepth := Config.sampleBufferDepthLessOne + 1
  hostQueueDepth := Config.hostQueueDepthLessOne + 1
  gainLsb := Config.machineGainLsb
  gainOffset := Config.machineGainOffset
  owner := 0
  desyncDetect := .heuristic 0
  recomputeAtomic := true
  clkDiv := .by32
  baudRate := baud
  serialPort := Config.machineSerialPort

end Sys2Proof
end

