-- ==== Sys2Proof/Machine/Packet.lean ====
section
/-!
DEFINITION. The packet format PKT40: packing four codes into five bytes and back (30_encoding.md R90, R91; 20_memory.md R62).
-/

namespace Sys2Proof.Machine

/-- Bits `hi` down to `lo` of a value, as a byte: `v[hi:lo]` zero-extended (R12). -/
def byteOf {n : Nat} (v : BitVec n) (hi lo : Nat) : Byte :=
  (v.extractLsb hi lo).setWidth 8

/-- Bits `hi` down to `lo` of a byte, as a code: `b[hi:lo]` zero-extended (R12). -/
def codeOf (b : Byte) (hi lo : Nat) : Code :=
  (b.extractLsb hi lo).setWidth 10

/-- The five bytes of a packet, byte0 first (R90, R63). -/
def pack (q : Quad) : List Byte :=
  [byteOf q.s0 7 0,
   byteOf q.s0 9 8 ||| (byteOf q.s1 5 0 <<< 2),
   byteOf q.s1 9 6 ||| (byteOf q.s2 3 0 <<< 4),
   byteOf q.s2 9 4 ||| (byteOf q.s3 1 0 <<< 6),
   byteOf q.s3 9 2]

/-- The four codes of a five-byte window (R91). -/
def unpack (b0 b1 b2 b3 b4 : Byte) : Quad where
  s0 := codeOf b0 7 0 ||| (codeOf b1 1 0 <<< 8)
  s1 := codeOf b1 7 2 ||| (codeOf b2 3 0 <<< 6)
  s2 := codeOf b2 7 4 ||| (codeOf b3 5 0 <<< 4)
  s3 := codeOf b3 7 6 ||| (codeOf b4 7 0 <<< 2)

/-- The samples of a packet in conversion order (R64). -/
def quadCodes (q : Quad) : List Code := [q.s0, q.s1, q.s2, q.s3]

end Sys2Proof.Machine
end

