-- ==== Sys2Proof/Machine/State.lean ====
section
/-!
DEFINITION. The machine's state: the fields of 10_state.md R21 to R37 with the values of 70_reset_and_hazards.md R280, the
configuration, and the model's own input and output fields; the reasons a step can stop.
-/

namespace Sys2Proof.Machine

/-- The firmware sampler: the loop position and the four accumulator slots (R21, R22). -/
structure Firmware where
  k   : Nat
  acc : Vector (Option Code) 4
deriving DecidableEq, Repr

/-- The host decoder: assembly window, slip counter and bounded queue (R27, R28, R29). -/
structure Decoder where
  asm         : List Byte
  desyncCount : Nat
  queue       : List Code
deriving DecidableEq, Repr

/-- The configuration record of one derived channel (R33 to R35). -/
structure Descriptor where
  ctl   : Ctl
  a     : Nat
  b     : Nat
  level : Nat
  buf   : List XVal
  work  : Option (Nat × List XVal)
deriving DecidableEq, Repr

/-- The channel store: physical buffers, the finite map of derived channels as a list strictly rising in the id, and the
next id (R31, R32, R36; log entry 10). -/
structure Channels where
  phys    : Vector (List Rat) 2
  derived : List (Nat × Descriptor)
  nextId  : Nat
deriving DecidableEq, Repr

/-- The status words and events of the block (R251). -/
inductive Status where
  /-- Success; of a creation, with the new channel's id. -/
  | ok (id : Option Nat)
  | nestingTooDeep
  | channelLimitReached
  /-- Counted in `dec.desyncCount` only and never replied: it "is not surfaced per-occurrence" (R250). -/
  | streamDesync
  | linkLost
  | invalidChannel
deriving DecidableEq, Repr

/-- The operand pair and the result of a point-wise operator run on its own (R201 to R206). DESIGN CHOICE (log entry 7;
safe): the model's own, no operation label reads or writes it. -/
structure Lane where
  a      : Rat
  b      : Rat
  result : XVal
deriving DecidableEq, Repr

/-- The machine. `fw`, `wire`, `linkUp`, `dec` and `ch` are the spec's state (R20); `cfg` is the configuration, which no step
changes (log entry 1); `sched`, `reply` and `lane` are the model's own input and outputs (log entries 4, 6 and 7). -/
structure State where
  fw     : Firmware
  wire   : List Byte
  linkUp : Bool
  dec    : Decoder
  ch     : Channels
  cfg    : Config
  sched  : List Slot
  reply  : Option Status
  lane   : Lane
deriving DecidableEq, Repr

/-- The firmware at the top of its loop, nothing converted (R280). -/
def Firmware.reset : Firmware := ⟨0, #v[none, none, none, none]⟩

/-- The decoder with an empty window and queue (R280). -/
def Decoder.reset : Decoder := ⟨[], 0, []⟩

/-- The channel store with empty physical buffers and no derived channel (R280). -/
def Channels.reset : Channels := ⟨#v[[], []], [], 2⟩

/-- The power-on state S0 (R280), under the launch configuration, with nothing scheduled. DESIGN CHOICE for `sched`, `reply`
and `lane`, which the spec does not give (log entries 4, 6 and 7). -/
def State.reset : State where
  fw := Firmware.reset
  wire := []
  linkUp := true
  dec := Decoder.reset
  ch := Channels.reset
  cfg := Config.launch
  sched := []
  reply := none
  lane := ⟨0, 0, .fin 0⟩

/-- Why an operation has no step: the part of its guard that fails (R15, R261). -/
inductive Hold where
  /-- Raised by `step`: the schedule is used up, so the run is over (R263). -/
  | scheduleEmpty
  /-- Raised by SMP.CONVERT: `fw.k` is not below 4 (R121). -/
  | groupFull
  /-- Raised by SMP.EMIT: `fw.k` is not 4 (R122). -/
  | groupNotFull
  /-- Raised by LNK.DROP and DEC.INGEST: nothing is on the wire (R151, R152). -/
  | wireEmpty
  /-- Raised by LNK.DOWN and DEC.INGEST: the link is absent (R151, R159). -/
  | linkAbsent
  /-- Raised by LNK.UP: the link is present (R160). -/
  | linkPresent
  /-- Raised by DEC.INGEST: the window holds 5 bytes or more (R151). -/
  | windowFull
  /-- Raised by DEC.UNPACK and DEC.SLIP: the window does not hold exactly 5 bytes (R153, R154). -/
  | windowNotFull
  /-- Raised by DEC.UNPACK: the detector does not say plausible (R153). -/
  | notPlausible
  /-- Raised by DEC.SLIP: the detector does not say implausible (R154). -/
  | notImplausible
  /-- Raised by DEC.PUSH: the queue is empty (R155). -/
  | queueEmpty
  /-- Raised by MTH.RECOMPUTE, MTH.BEGIN and MTH.ELEM: the id names no live derived channel (R214, R216, R217). -/
  | channelNotLive
  /-- Raised by MTH.RECOMPUTE: `RECOMPUTE_ATOMIC` is false (R214). -/
  | recomputeElementwise
  /-- Raised by MTH.BEGIN and MTH.ELEM: `RECOMPUTE_ATOMIC` is true (R216, R217). -/
  | recomputeIsAtomic
  /-- Raised by MTH.DELETE and MTH.BEGIN: a non-atomic recompute of the channel is in flight (R212, R216). -/
  | recomputeInFlight
  /-- Raised by MTH.ELEM: no recompute of the channel is in flight (R217). -/
  | noRecomputeInFlight
deriving DecidableEq, Repr

/-- Why a step stops without a next state. -/
inductive Fault where
  /-- Raised by every operation whose guard fails, and by `step` on an empty schedule: the spec's "no step", a stuck state, not
  an error of the block (R261, R263). Safe: the model stops where the spec gives no step (log entry 5). -/
  | noStep (why : Hold)
  /-- Raised by SMP.EMIT when a slot it reads holds no value: a fault by R22, and unreachable. Safe (log entry 9). -/
  | unwrittenSlot
  /-- Raised by MTH.RECOMPUTE and MTH.ELEM when a descriptor's operand is no physical channel: unreachable by R33. Safe (log
  entry 9). -/
  | noSuchBuffer
deriving DecidableEq, Repr

/-- Why a step is refused. -/
inductive Refusal where
  /-- Raised by an arm of `exec` for an instruction that has no meaning yet: none is left. Safe. -/
  | notModelled (mnemonic : String)
  /-- Raised by `step`: the label decoder refuses the scheduled label, which marks the whole run refused (R97, R261). Safe. -/
  | rejected (why : Reject)
deriving DecidableEq, Repr

end Sys2Proof.Machine
end

