-- ==== Sys2Proof/Machine/Ops.lean ====
section
/-!
DEFINITION. The named operations over the sequences, the channel store and the reply, through which every meaning reads and writes
the state. The block has no trap mechanism (60_exceptions.md R254, R255): its one error path is `State.answer`, a status
returned with the state unchanged (R252).
-/

namespace Sys2Proof.Machine

/-- What an operation answers. -/
abbrev Result := Host.Outcome State Fault Refusal

/-- The operation has no step: its guard fails (R15, R261). -/
def hold (why : Hold) : Result := .fault (.noStep why)

/-! ### The bounded push -/

/-- Push with oldest-first eviction, for `1 ≤ cap` (R40). -/
def rbPush {α : Type} (xs : List α) (x : α) (cap : Nat) : List α :=
  if xs.length < cap then xs ++ [x] else (xs.drop (xs.length - cap)).tail ++ [x]

/-- Push the elements in order, each with its own eviction (R153). -/
def rbPushAll {α : Type} (xs : List α) (ys : List α) (cap : Nat) : List α :=
  ys.foldl (fun acc y => rbPush acc y cap) xs

/-! ### The map of derived channels -/

/-- The descriptor of a live derived channel (R32). -/
def findDesc (id : Nat) : List (Nat × Descriptor) → Option Descriptor
  | [] => none
  | (k, d) :: rest => if k = id then some d else findDesc id rest

/-- The map with `id` set to `d`, kept rising in the id (R32). -/
def insertDesc (id : Nat) (d : Descriptor) : List (Nat × Descriptor) → List (Nat × Descriptor)
  | [] => [(id, d)]
  | (k, e) :: rest =>
    if id < k then (id, d) :: (k, e) :: rest
    else if id = k then (id, d) :: rest
    else (k, e) :: insertDesc id d rest

/-- The map without `id` (R212). -/
def eraseDesc (id : Nat) (m : List (Nat × Descriptor)) : List (Nat × Descriptor) :=
  m.filter fun e => e.1 ≠ id

/-- The map is in its canonical form: ids strictly rising, so no id twice (R32). -/
abbrev derivedCanonical (m : List (Nat × Descriptor)) : Prop :=
  m.Pairwise fun x y => x.1 < y.1

/-! ### State updates -/

/-- Write the firmware's loop position and slots. -/
def State.setFw (s : State) (fw : Firmware) : State := { s with fw := fw }

/-- Write the wire. -/
def State.setWire (s : State) (w : List Byte) : State := { s with wire := w }

/-- Write the link's presence. -/
def State.setLink (s : State) (up : Bool) : State := { s with linkUp := up }

/-- Write the assembly window. -/
def State.setAsm (s : State) (bs : List Byte) : State := { s with dec := { s.dec with asm := bs } }

/-- Write the host queue. -/
def State.setQueue (s : State) (q : List Code) : State := { s with dec := { s.dec with queue := q } }

/-- Count one slip (R28). -/
def State.countDesync (s : State) : State :=
  { s with dec := { s.dec with desyncCount := s.dec.desyncCount + 1 } }

/-- Append a sample to a physical channel's buffer, evicting the oldest when it is full (R31, R40). -/
def State.pushPhys (s : State) (p : Fin 2) (x : Rat) : State :=
  { s with ch := { s.ch with phys := s.ch.phys.set p (rbPush s.ch.phys[p] x s.cfg.sampleBufferDepth) } }

/-- Set a derived channel's descriptor. -/
def State.setDesc (s : State) (id : Nat) (d : Descriptor) : State :=
  { s with ch := { s.ch with derived := insertDesc id d s.ch.derived } }

/-- Remove a derived channel. -/
def State.dropDesc (s : State) (id : Nat) : State :=
  { s with ch := { s.ch with derived := eraseDesc id s.ch.derived } }

/-- Take the next id: it is never given out again (R36). -/
def State.takeId (s : State) : State :=
  { s with ch := { s.ch with nextId := s.ch.nextId + 1 } }

/-- Return a status to the caller, or report an event, with the rest of the state as it is (R251, R252; log entry 6). -/
def State.answer (s : State) (st : Status) : State := { s with reply := some st }

/-- Write the lane's result. -/
def State.setResult (s : State) (x : XVal) : State := { s with lane := { s.lane with result := x } }

/-- What remains of the state when an entry is taken off the schedule: the entries after it, an operator's pair latched, and
the previous reply gone, since statuses are not latched (R252). -/
def State.takeSlot (s : State) (rest : List Slot) : State :=
  { s with
    sched := rest
    reply := none
    lane := match s.sched with
      | .operator _ a b :: _ => { s.lane with a := a, b := b }
      | _ => s.lane }

/-- Place entries at the front of the schedule. -/
def State.schedule (s : State) (es : List Slot) : State := { s with sched := es ++ s.sched }

/-! ### Reads of the channel store -/

/-- The descriptor of a live derived channel. -/
def State.desc (s : State) (id : Nat) : Option Descriptor := findDesc id s.ch.derived

/-- The buffer of a physical channel, none for an id that names no physical channel (R31). -/
def State.physBuf (s : State) (c : Nat) : Option (List Rat) := s.ch.phys[c]?

/-- The channel exists: physical, or a live derived channel (R211). -/
def State.chanExists (s : State) (c : Nat) : Bool := decide (c < physicalChannels) || (s.desc c).isSome

/-- The nesting depth of a channel (R213). -/
def State.level (s : State) (c : Nat) : Nat :=
  if c < physicalChannels then 0
  else match s.desc c with
    | some d => d.level
    | none => 0

end Sys2Proof.Machine
end

