-- ==== Sys2Proof/Machine/Operands.lean ====
section
/-!
DEFINITION. Operand forms: the scaled sample (41_decoder.md R161), the other physical channel (R156), the samples of a finished group
(R122), the detector's context and verdict (R157), and the operand buffers of a descriptor (30_encoding.md R94).
-/

namespace Sys2Proof.Machine

/-- The linear code-to-volts map of the selected gain range (R161). -/
def scale (cfg : Config) (c : Code) : Rat := cfg.gainLsb * (c.toNat : Rat) + cfg.gainOffset

/-- The physical channel the decoded stream does not feed: `1 - OWNER` (R156). -/
def otherChannel (cfg : Config) : Fin 2 := 1 - cfg.owner

/-- The four samples of a finished group; none if a slot is unwritten (R22, R122). -/
def groupOf (acc : Vector (Option Code) 4) : Option Quad :=
  match acc[0], acc[1], acc[2], acc[3] with
  | some s0, some s1, some s2, some s3 => some ⟨s0, s1, s2, s3⟩
  | _, _, _, _ => none

/-- What the detector looks at (R157). -/
def detectContext (s : State) : DetectContext where
  asm := s.dec.asm
  queue := s.dec.queue
  ownerBuf := s.ch.phys[s.cfg.owner]
  desyncCount := s.dec.desyncCount

/-- The judgement a written-out detector gives a context: its first row for it, else the common one. -/
def tableJudgement (others : Judgement) (ctx : DetectContext) : List (DetectContext × Judgement) → Judgement
  | [] => others
  | (c, j) :: rest => if c = ctx then j else tableJudgement others ctx rest

/-- `Detect(ctx, v)`: the detector admits the verdict in the context (R157). -/
def detect (det : Detector) (ctx : DetectContext) (v : Verdict) : Bool :=
  match det with
  | .never => decide (v = .plausible)
  | .any => true
  | .table others rows => (tableJudgement others ctx rows).admits v
  | .heuristic n => (Config.judge n ctx).admits v

/-- The current operand buffers A and B of a descriptor (R94). -/
def operandBuffers (s : State) (d : Descriptor) : Option (List Rat × List Rat) :=
  match s.physBuf d.a, s.physBuf d.b with
  | some bufA, some bufB => some (bufA, bufB)
  | _, _ => none

end Sys2Proof.Machine
end

