-- ==== Sys2Proof/Machine/Decoder.lean ====
section
/-!
DEFINITION. The stream decoder and the two feeds of the physical buffers: DEC.INGEST, DEC.UNPACK, DEC.SLIP, DEC.PUSH and ENV.FEED
(41_decoder.md R151, R153 to R156).
-/

namespace Sys2Proof.Machine

/-- `DEC.INGEST`: take the oldest byte of the wire into the window (R151). -/
def execDecIngest (s : State) : Result :=
  if s.linkUp then
    match s.wire with
    | [] => hold .wireEmpty
    | b :: rest =>
      if s.dec.asm.length < 5 then .next ((s.setAsm (s.dec.asm ++ [b])).setWire rest)
      else hold .windowFull
  else hold .linkAbsent

/-- `DEC.UNPACK`: decode a full window judged plausible and queue its four codes in order (R153). -/
def execDecUnpack (s : State) : Result :=
  match s.dec.asm with
  | [b0, b1, b2, b3, b4] =>
    if detect s.cfg.desyncDetect (detectContext s) .plausible then
      .next ((s.setQueue (rbPushAll s.dec.queue (quadCodes (unpack b0 b1 b2 b3 b4)) s.cfg.hostQueueDepth)).setAsm [])
    else hold .notPlausible
  | _ => hold .windowNotFull

/-- `DEC.SLIP`: discard the oldest byte of a full window judged implausible, and count it (R154). -/
def execDecSlip (s : State) : Result :=
  if s.dec.asm.length = 5 then
    if detect s.cfg.desyncDetect (detectContext s) .implausible then
      .next ((s.setAsm s.dec.asm.tail).countDesync)
    else hold .notImplausible
  else hold .windowNotFull

/-- `DEC.PUSH`: move the oldest queued code, scaled to volts, into the owner's buffer (R155). -/
def execDecPush (s : State) : Result :=
  match s.dec.queue with
  | [] => hold .queueEmpty
  | c :: rest => .next ((s.setQueue rest).pushPhys s.cfg.owner (scale s.cfg c))

/-- `ENV.FEED v`: a sample arrives for the physical channel the stream does not feed (R156). -/
def execEnvFeed (v : Code) (s : State) : Result :=
  .next (s.pushPhys (otherChannel s.cfg) (scale s.cfg v))

end Sys2Proof.Machine
end

