-- ==== Sys2Proof/Machine/Link.lean ====
section
/-!
DEFINITION. The serial link: LNK.DROP, LNK.DOWN and LNK.UP (41_decoder.md R152, R159, R160).
-/

namespace Sys2Proof.Machine

/-- `LNK.DROP`: the transport loses the oldest byte in flight (R152). -/
def execLnkDrop (s : State) : Result :=
  match s.wire with
  | [] => hold .wireEmpty
  | _ :: rest => .next (s.setWire rest)

/-- `LNK.DOWN`: the link is lost with the bytes in flight, and the loss is reported (R159, R251). -/
def execLnkDown (s : State) : Result :=
  if s.linkUp then .next (((s.setLink false).setWire []).answer .linkLost)
  else hold .linkAbsent

/-- `LNK.UP`: the link returns (R160). -/
def execLnkUp (s : State) : Result :=
  if s.linkUp then hold .linkPresent else .next (s.setLink true)

end Sys2Proof.Machine
end

