-- ==== Sys2Proof/Machine/Operators.lean ====
section
/-!
DEFINITION. The point-wise arithmetic unit (42_math.md R200 to R210): the six operators as functions of a pair of exact rationals, the
dispatch on an operator word, and the operators' meanings as instructions of their own.
-/

namespace Sys2Proof.Machine

/-- Division is total: the edge rules, then exact division (R207). -/
def divide (n d : Rat) : XVal :=
  if d = 0 then
    if n = 0 then .fin 1 else if 0 < n then .posInf else .negInf
  else .fin (n / d)

/-- ADD (R201). -/
def opAdd (x y : Rat) : XVal := .fin (x + y)
/-- SUB.AB (R202). -/
def opSubAB (a b : Rat) : XVal := .fin (a - b)
/-- SUB.BA (R203). -/
def opSubBA (a b : Rat) : XVal := .fin (b - a)
/-- MUL (R204). -/
def opMul (x y : Rat) : XVal := .fin (x * y)
/-- DIV.AB (R205). -/
def opDivAB (a b : Rat) : XVal := divide a b
/-- DIV.BA (R206). -/
def opDivBA (a b : Rat) : XVal := divide b a

/-- `Op(ctl, A, B)`: the operator a descriptor applies, chosen by `ctl[1:0]` and the order flag `ctl[2]` (R208). -/
def applyCtl (ctl : Ctl) (a b : Rat) : XVal :=
  match (ctl.extractLsb 1 0).toNat with
  | 0 => opAdd a b
  | 1 => if ctl.getLsbD 2 = false then opSubAB a b else opSubBA a b
  | 2 => opMul a b
  | _ => if ctl.getLsbD 2 = false then opDivAB a b else opDivBA a b

/-- The index-matched results over the overlap of the two buffers, index 0 the oldest (R214, R94). -/
def pointwise (ctl : Ctl) (bufA bufB : List Rat) : List XVal :=
  List.zipWith (applyCtl ctl) bufA bufB

/-- `ADD` on the lane's pair (R201; log entry 7). -/
def execAdd (s : State) : Result := .next (s.setResult (opAdd s.lane.a s.lane.b))

/-- `SUB.AB` on the lane's pair (R202; log entry 7). -/
def execSubAB (s : State) : Result := .next (s.setResult (opSubAB s.lane.a s.lane.b))

/-- `SUB.BA` on the lane's pair (R203; log entry 7). -/
def execSubBA (s : State) : Result := .next (s.setResult (opSubBA s.lane.a s.lane.b))

/-- `MUL` on the lane's pair (R204; log entry 7). -/
def execMul (s : State) : Result := .next (s.setResult (opMul s.lane.a s.lane.b))

/-- `DIV.AB` on the lane's pair (R205; log entry 7). -/
def execDivAB (s : State) : Result := .next (s.setResult (opDivAB s.lane.a s.lane.b))

/-- `DIV.BA` on the lane's pair (R206; log entry 7). -/
def execDivBA (s : State) : Result := .next (s.setResult (opDivBA s.lane.a s.lane.b))

end Sys2Proof.Machine
end

