-- ==== Sys2Proof/Machine/Recompute.lean ====
section
/-!
DEFINITION. Recompute of derived channels: MTH.RECOMPUTE, MTH.BEGIN and MTH.ELEM (42_math.md R214 to R217).
-/

namespace Sys2Proof.Machine

/-- `MTH.RECOMPUTE id`: the whole buffer in one step from the current operand buffers (R214). -/
def execMthRecompute (id : Nat) (s : State) : Result :=
  if s.cfg.recomputeAtomic then
    match s.desc id with
    | none => hold .channelNotLive
    | some d =>
      match operandBuffers s d with
      | none => .fault .noSuchBuffer
      | some (bufA, bufB) => .next (s.setDesc id { d with buf := pointwise d.ctl bufA bufB })
  else hold .recomputeElementwise

/-- `MTH.BEGIN id`: start a non-atomic recompute (R216). -/
def execMthBegin (id : Nat) (s : State) : Result :=
  if s.cfg.recomputeAtomic then hold .recomputeIsAtomic
  else
    match s.desc id with
    | none => hold .channelNotLive
    | some d =>
      if d.work = none then .next (s.setDesc id { d with work := some (0, []) })
      else hold .recomputeInFlight

/-- `MTH.ELEM id`: one element, its length check and read in the same step, or the finish (R217). -/
def execMthElem (id : Nat) (s : State) : Result :=
  if s.cfg.recomputeAtomic then hold .recomputeIsAtomic
  else
    match s.desc id with
    | none => hold .channelNotLive
    | some d =>
      match d.work with
      | none => hold .noRecomputeInFlight
      | some (i, acc) =>
        match operandBuffers s d with
        | none => .fault .noSuchBuffer
        | some (bufA, bufB) =>
          match bufA[i]?, bufB[i]? with
          | some x, some y => .next (s.setDesc id { d with work := some (i + 1, acc ++ [applyCtl d.ctl x y]) })
          | _, _ => .next (s.setDesc id { d with buf := acc, work := none })

end Sys2Proof.Machine
end

