-- ==== Sys2Proof/Machine/Registry.lean ====
section
/-!
DEFINITION. Configuration of derived channels: MTH.CREATE and MTH.DELETE (42_math.md R211 to R213; 60_exceptions.md R251, R252, R256).
-/

namespace Sys2Proof.Machine

/-- `MTH.CREATE ctl, a, b`: the checks in the order of R256, each rejecting with the state unchanged; then the new channel takes
the next id (R211). -/
def execMthCreate (ctl : Ctl) (a b : Nat) (s : State) : Result :=
  if s.chanExists a = false ∨ s.chanExists b = false then .next (s.answer .invalidChannel)
  else if maxMathLevel < 1 + max (s.level a) (s.level b) then .next (s.answer .nestingTooDeep)
  else if s.ch.derived.length = maxDerived then .next (s.answer .channelLimitReached)
  else .next (((s.setDesc s.ch.nextId ⟨ctl, a, b, 1, [], none⟩).takeId).answer (.ok (some s.ch.nextId)))

/-- `MTH.DELETE id`: remove a derived channel whose recompute is not in flight (R212). -/
def execMthDelete (id : Nat) (s : State) : Result :=
  match s.desc id with
  | none => .next (s.answer .invalidChannel)
  | some d =>
    if d.work = none then .next ((s.dropDesc id).answer (.ok none))
    else hold .recomputeInFlight

end Sys2Proof.Machine
end

