-- ==== Sys2Proof/Machine/Reset.lean ====
section
/-!
DEFINITION. The environment's resets: RST.FW and RST.HOST (70_reset_and_hazards.md R281, R282).
-/

namespace Sys2Proof.Machine

/-- `RST.FW`: the firmware restarts, a partial group is lost, the wire and the host are as they were (R281). -/
def execRstFw (s : State) : Result :=
  .next (s.setFw ⟨0, #v[none, none, none, none]⟩)

/-- `RST.HOST`: the host restarts, the wire and the link are as they were (R282). -/
def execRstHost (s : State) : Result :=
  .next { s with dec := ⟨[], 0, []⟩, ch := ⟨#v[[], []], [], 2⟩ }

end Sys2Proof.Machine
end

