-- ==== Sys2Proof/Machine/Sampler.lean ====
section
/-!
DEFINITION. The firmware sampler: SMP.CONVERT and SMP.EMIT (40_sampler.md R120 to R127).
-/

namespace Sys2Proof.Machine

/-- `SMP.CONVERT v`: store the conversion in the next slot of the group (R121). -/
def execSmpConvert (v : Code) (s : State) : Result :=
  if h : s.fw.k < 4 then
    .next (s.setFw ⟨s.fw.k + 1, s.fw.acc.set s.fw.k (some v) h⟩)
  else hold .groupFull

/-- Hand a packet to the link; while the link is absent the packet is lost whole (R122). -/
def transmit (bytes : List Byte) (s : State) : State :=
  if s.linkUp then s.setWire (s.wire ++ bytes) else s

/-- `SMP.EMIT`: pack the group, transmit it and start the next group (R122). -/
def execSmpEmit (s : State) : Result :=
  if s.fw.k = 4 then
    match groupOf s.fw.acc with
    | some q => .next ((transmit (pack q) s).setFw ⟨0, #v[none, none, none, none]⟩)
    | none => .fault .unwrittenSlot
  else hold .groupNotFull

end Sys2Proof.Machine
end

