-- ==== Sys2Proof/Syntax.lean ====
section
/-!
DEFINITION. The instruction set: one constructor per row of spec/opcode_table.json, the 17 operation labels of 30_encoding.md
R95 and the 6 point-wise operators of R93.
-/

namespace Sys2Proof

/-- One operation of the block. Sample and operator arguments are bit vectors of their width, so no argument is out of
range after decoding (R96); channel ids are unbounded naturals: 0 is CH1,
1 is CH2, derived channels from 2 upward (R30). -/
inductive Instr where
  /-- One ADC conversion completes with result `v` (R121). -/
  | smpConvert (v : Code)
  /-- Pack the four samples and transmit the packet (R122). -/
  | smpEmit
  /-- The transport loses the oldest byte in flight (R152). -/
  | lnkDrop
  /-- The serial link is lost (R159). -/
  | lnkDown
  /-- The serial link returns (R160). -/
  | lnkUp
  /-- Take the oldest byte of the wire into the window (R151). -/
  | decIngest
  /-- Decode a full window judged plausible (R153). -/
  | decUnpack
  /-- Discard the oldest byte of a full window judged implausible (R154). -/
  | decSlip
  /-- Move the oldest queued code into the owner's buffer (R155). -/
  | decPush
  /-- A sample arrives for the other physical channel (R156). -/
  | envFeed (v : Code)
  /-- Create a derived channel (R211). -/
  | mthCreate (ctl : Ctl) (a b : Nat)
  /-- Remove a derived channel (R212). -/
  | mthDelete (id : Nat)
  /-- Recompute a derived channel's buffer in one step (R214). -/
  | mthRecompute (id : Nat)
  /-- Start a non-atomic recompute (R216). -/
  | mthBegin (id : Nat)
  /-- Compute one element of a non-atomic recompute, or finish it (R217). -/
  | mthElem (id : Nat)
  /-- The firmware restarts (R281). -/
  | rstFw
  /-- The host process restarts (R282). -/
  | rstHost
  /-- Point-wise sum (R201). -/
  | add
  /-- Point-wise difference A − B (R202). -/
  | subAB
  /-- Point-wise difference B − A (R203). -/
  | subBA
  /-- Point-wise product (R204). -/
  | mul
  /-- Point-wise quotient A / B (R205). -/
  | divAB
  /-- Point-wise quotient B / A (R206). -/
  | divBA
deriving DecidableEq, Repr

end Sys2Proof
end

