-- ==== Sys2Proof/Machine/Dispatch.lean ====
section
/-!
DEFINITION. exec: one arm per instruction, each one call of that instruction's meaning.
-/

namespace Sys2Proof.Machine

def exec (i : Instr) (s : State) : Host.Outcome State Fault Refusal :=
  match i with
  | .smpConvert v => Sys2Proof.Machine.execSmpConvert v s
  | .smpEmit => Sys2Proof.Machine.execSmpEmit s
  | .lnkDrop => Sys2Proof.Machine.execLnkDrop s
  | .lnkDown => Sys2Proof.Machine.execLnkDown s
  | .lnkUp => Sys2Proof.Machine.execLnkUp s
  | .decIngest => Sys2Proof.Machine.execDecIngest s
  | .decUnpack => Sys2Proof.Machine.execDecUnpack s
  | .decSlip => Sys2Proof.Machine.execDecSlip s
  | .decPush => Sys2Proof.Machine.execDecPush s
  | .envFeed v => Sys2Proof.Machine.execEnvFeed v s
  | .mthCreate ctl a b => Sys2Proof.Machine.execMthCreate ctl a b s
  | .mthDelete id => Sys2Proof.Machine.execMthDelete id s
  | .mthRecompute id => Sys2Proof.Machine.execMthRecompute id s
  | .mthBegin id => Sys2Proof.Machine.execMthBegin id s
  | .mthElem id => Sys2Proof.Machine.execMthElem id s
  | .rstFw => Sys2Proof.Machine.execRstFw s
  | .rstHost => Sys2Proof.Machine.execRstHost s
  | .add => Sys2Proof.Machine.execAdd s
  | .subAB => Sys2Proof.Machine.execSubAB s
  | .subBA => Sys2Proof.Machine.execSubBA s
  | .mul => Sys2Proof.Machine.execMul s
  | .divAB => Sys2Proof.Machine.execDivAB s
  | .divBA => Sys2Proof.Machine.execDivBA s

end Sys2Proof.Machine
end

