-- ==== Sys2Proof/WellFormed.lean ====
section
/-!
DEFINITION. Well-formedness: which instructions have a byte form (30_encoding.md R98), and what an operation label must satisfy
to spell an operation (R95 to R97), one named check each.
-/

namespace Sys2Proof

/-- A channel id has a byte form (R98). -/
abbrev idFitsByte (c : Nat) : Bool := decide (c < 256)

/-- The instruction has an encoding: every channel id fits its byte (R98). The other arguments fit by their type, and the
operators have no argument. -/
def Instr.wf : Instr → Bool
  | .smpConvert _ => true
  | .smpEmit => true
  | .lnkDrop => true
  | .lnkDown => true
  | .lnkUp => true
  | .decIngest => true
  | .decUnpack => true
  | .decSlip => true
  | .decPush => true
  | .envFeed _ => true
  | .mthCreate _ a b => idFitsByte a && idFitsByte b
  | .mthDelete id => idFitsByte id
  | .mthRecompute id => idFitsByte id
  | .mthBegin id => idFitsByte id
  | .mthElem id => idFitsByte id
  | .rstFw => true
  | .rstHost => true
  | .add => true
  | .subAB => true
  | .subBA => true
  | .mul => true
  | .divAB => true
  | .divBA => true

/-- The arguments an opcode takes, in order, and none for a reserved opcode (R95, R97). -/
def argKinds : Nat → Option (List ArgKind)
  | 0x01 => some [.sample]
  | 0x02 => some []
  | 0x11 => some []
  | 0x12 => some []
  | 0x13 => some []
  | 0x21 => some []
  | 0x22 => some []
  | 0x23 => some []
  | 0x24 => some []
  | 0x25 => some [.sample]
  | 0x31 => some [.ctl, .chan, .chan]
  | 0x32 => some [.chan]
  | 0x33 => some [.chan]
  | 0x34 => some [.chan]
  | 0x35 => some [.chan]
  | 0x51 => some []
  | 0x52 => some []
  | _ => none

/-- The opcode spells an operation (R97). -/
def Label.opcodeAssigned (l : Label) : Bool := (argKinds l.opcode.toNat).isSome

/-- An argument is in the range of its kind (R96). -/
def ArgKind.inRange : ArgKind → Nat → Bool
  | .sample, v => decide (v < 1024)
  | .ctl, c => decide (c < 8)
  | .chan, _ => true

/-- The label has as many arguments as its opcode takes (R95). -/
def Label.arityRight (l : Label) : Bool :=
  match argKinds l.opcode.toNat with
  | none => false
  | some ks => ks.length == l.args.length

/-- Every argument of the label is in range (R96). -/
def Label.argsInRange (l : Label) : Bool :=
  match argKinds l.opcode.toNat with
  | none => false
  | some ks => (List.zipWith ArgKind.inRange ks l.args).all id

/-- The label spells an operation (R95 to R97). -/
def Label.wf (l : Label) : Bool := l.opcodeAssigned && l.arityRight && l.argsInRange

end Sys2Proof
end

