-- ==== Sys2Proof/Decode.lean ====
section
/-!
DEFINITION. The label decoder, total on any bytes and any label and refusing by name (30_encoding.md R95 to R98), the operator word
decoder (R93), the encoder written from the same tables, and the reader of the opcode table's words.
-/

namespace Sys2Proof

/-! ### Labels -/

/-- A label's operation, or why it spells none (R95 to R97). -/
def decodeLabel (l : Label) : Except Reject Instr :=
  match l.opcode.toNat, l.args with
  | 0x01, [v] => if v < 1024 then .ok (.smpConvert (BitVec.ofNat 10 v)) else .error .sampleOutOfRange
  | 0x02, [] => .ok .smpEmit
  | 0x11, [] => .ok .lnkDrop
  | 0x12, [] => .ok .lnkDown
  | 0x13, [] => .ok .lnkUp
  | 0x21, [] => .ok .decIngest
  | 0x22, [] => .ok .decUnpack
  | 0x23, [] => .ok .decSlip
  | 0x24, [] => .ok .decPush
  | 0x25, [v] => if v < 1024 then .ok (.envFeed (BitVec.ofNat 10 v)) else .error .sampleOutOfRange
  | 0x31, [c, a, b] => if c < 8 then .ok (.mthCreate (BitVec.ofNat 3 c) a b) else .error .ctlOutOfRange
  | 0x32, [c] => .ok (.mthDelete c)
  | 0x33, [c] => .ok (.mthRecompute c)
  | 0x34, [c] => .ok (.mthBegin c)
  | 0x35, [c] => .ok (.mthElem c)
  | 0x51, [] => .ok .rstFw
  | 0x52, [] => .ok .rstHost
  | op, _ => if (argKinds op).isSome then .error .wrongArguments else .error .reservedOpcode

/-! ### Byte form -/

/-- One argument off the front of the bytes: a sample is two bytes, the low one first, any other one byte (R98). -/
def readArg : ArgKind → List Byte → Option (Nat × List Byte)
  | .sample, lo :: hi :: rest => some (lo.toNat + 256 * hi.toNat, rest)
  | .ctl, b :: rest => some (b.toNat, rest)
  | .chan, b :: rest => some (b.toNat, rest)
  | _, _ => none

/-- The arguments of the given kinds off the front of the bytes (R98). -/
def readArgs : List ArgKind → List Byte → Option (List Nat × List Byte)
  | [], bs => some ([], bs)
  | k :: ks, bs =>
    match readArg k bs with
    | none => none
    | some (v, rest) =>
      match readArgs ks rest with
      | none => none
      | some (vs, rest') => some (v :: vs, rest')

/-- The label whose byte form stands at the front of the bytes, and the bytes after it (R98). -/
def readLabel : List Byte → Except Reject (Label × List Byte)
  | [] => .error .truncated
  | op :: rest =>
    match argKinds op.toNat with
    | none => .error .reservedOpcode
    | some ks =>
      match readArgs ks rest with
      | none => .error .truncated
      | some (args, rest') => .ok (⟨op, args⟩, rest')

/-- The operation whose byte form stands at the front of the bytes, and the bytes after it, or why there is none
(R97, R98). -/
def decode (bs : List Byte) : Except Reject (Instr × List Byte) :=
  match readLabel bs with
  | .error r => .error r
  | .ok (l, rest) =>
    match decodeLabel l with
    | .error r => .error r
    | .ok i => .ok (i, rest)

/-! ### Operator words -/

/-- The operator a 3-bit word stands for: every one of the 8 values is legal, and the order flag of addition and
multiplication is ignored (R93). -/
def decodeCtl (c : Ctl) : Instr :=
  match c.toNat with
  | 0 => .add
  | 1 => .subAB
  | 2 => .mul
  | 3 => .divAB
  | 4 => .add
  | 5 => .subBA
  | 6 => .mul
  | _ => .divBA

/-- Either format: a byte form with nothing after it, or an operator word. -/
def decodeEncoding : Encoding → Except Reject Instr
  | .operator c => .ok (decodeCtl c)
  | .bytes bs =>
    match decode bs with
    | .error r => .error r
    | .ok (i, []) => .ok i
    | .ok (_, _ :: _) => .error .wrongArguments

/-! ### The encoder -/

/-- The label of an operation (R95, R96); the operators have none. -/
def toLabel : Instr → Option Label
  | .smpConvert v => some ⟨0x01, [v.toNat]⟩
  | .smpEmit => some ⟨0x02, []⟩
  | .lnkDrop => some ⟨0x11, []⟩
  | .lnkDown => some ⟨0x12, []⟩
  | .lnkUp => some ⟨0x13, []⟩
  | .decIngest => some ⟨0x21, []⟩
  | .decUnpack => some ⟨0x22, []⟩
  | .decSlip => some ⟨0x23, []⟩
  | .decPush => some ⟨0x24, []⟩
  | .envFeed v => some ⟨0x25, [v.toNat]⟩
  | .mthCreate c a b => some ⟨0x31, [c.toNat, a, b]⟩
  | .mthDelete c => some ⟨0x32, [c]⟩
  | .mthRecompute c => some ⟨0x33, [c]⟩
  | .mthBegin c => some ⟨0x34, [c]⟩
  | .mthElem c => some ⟨0x35, [c]⟩
  | .rstFw => some ⟨0x51, []⟩
  | .rstHost => some ⟨0x52, []⟩
  | .add => none
  | .subAB => none
  | .subBA => none
  | .mul => none
  | .divAB => none
  | .divBA => none

/-- The word of an operator (R92, R100: the spelling of ADD and MUL has the order flag 0); the operations have none. -/
def toCtl : Instr → Option Ctl
  | .smpConvert _ => none
  | .smpEmit => none
  | .lnkDrop => none
  | .lnkDown => none
  | .lnkUp => none
  | .decIngest => none
  | .decUnpack => none
  | .decSlip => none
  | .decPush => none
  | .envFeed _ => none
  | .mthCreate _ _ _ => none
  | .mthDelete _ => none
  | .mthRecompute _ => none
  | .mthBegin _ => none
  | .mthElem _ => none
  | .rstFw => none
  | .rstHost => none
  | .add => some 0b000
  | .subAB => some 0b001
  | .subBA => some 0b101
  | .mul => some 0b010
  | .divAB => some 0b011
  | .divBA => some 0b111

/-- The bytes of one argument (R98). -/
def writeArg : ArgKind → Nat → List Byte
  | .sample, v => [BitVec.ofNat 8 v, BitVec.ofNat 8 (v / 256)]
  | .ctl, c => [BitVec.ofNat 8 c]
  | .chan, c => [BitVec.ofNat 8 c]

/-- The byte form of a label: the opcode, then each argument in its own field (R98). -/
def writeLabel (l : Label) : List Byte :=
  l.opcode :: (List.zipWith writeArg ((argKinds l.opcode.toNat).getD []) l.args).flatten

/-- The encoding of an instruction: an operation's byte form or an operator's word (R92, R98). -/
def encode (i : Instr) : Encoding :=
  match toLabel i with
  | some l => .bytes (writeLabel l)
  | none => .operator ((toCtl i).getD 0)

/-- How many bytes the byte form of an operation has, fixed by its opcode (R98). -/
def labelLength (op : Byte) : Option Nat :=
  (argKinds op.toNat).map fun ks => 1 + (ks.map fun k => if k = .sample then 2 else 1).sum

/-! ### The words of the opcode table -/

/-- The schedule entries that hold the instruction whose table word is `w` in `nbits` bits, all higher bits 0. A word under 8
bits is an operator word (CTL3). A word of whole bytes is a label's byte form (OP8), the first byte lowest; where its first
byte is a reserved opcode that no OP8 row matches and the word is a 3-bit number, it is an operator word, because the
table's CTL3 rows, counted in whole bytes, come as 8-bit words too. DESIGN CHOICE (log entry 8; safe): this reads the
TABLE; the machine's label decoder refuses those bytes (R97). -/
def tableSlots (nbits w : Nat) : List Slot :=
  if nbits < 8 then [.operator (BitVec.ofNat 3 w) 0 0] else
  let bs : List Byte := [BitVec.ofNat 8 w, BitVec.ofNat 8 (w / 256), BitVec.ofNat 8 (w / 65536), BitVec.ofNat 8 (w / 16777216)]
  match labelLength (BitVec.ofNat 8 w) with
  | some n => (bs.take n).map .byte
  | none => if w < 8 then [.operator (BitVec.ofNat 3 w) 0 0] else bs.map .byte

/-- The bytes at the front of a schedule, up to the first entry that is not a byte. -/
def leadBytes : List Slot → List Byte
  | .byte b :: rest => b :: leadBytes rest
  | _ => []

/-- The instruction the decoder reads at the front of a schedule (R16, R97), with the entries after it; `none` on an
empty schedule. -/
def decodeSlots : List Slot → Option (Except Reject (Instr × List Slot))
  | [] => none
  | .operator c _ _ :: rest => some (.ok (decodeCtl c, rest))
  | .label l :: rest =>
    match decodeLabel l with
    | .error r => some (.error r)
    | .ok i => some (.ok (i, rest))
  | .byte b :: rest =>
    match decode (b :: leadBytes rest) with
    | .error r => some (.error r)
    | .ok (i, left) => some (.ok (i, rest.drop ((leadBytes rest).length - left.length)))

/-- The instruction of a word of spec/opcode_table.json, bit 0 the least significant bit of the first byte. -/
def decodeTableWord (nbits w : Nat) : Option Instr :=
  match decodeSlots (tableSlots nbits w) with
  | some (.ok (i, _)) => some i
  | _ => none

end Sys2Proof
end

