-- ==== Sys2Proof/Machine/Fetch.lean ====
section
/-!
DEFINITION. Taking the next entry of the schedule (00_scope.md R16, 60_exceptions.md R261, R263) and placing an instruction of the
opcode table there.
-/

namespace Sys2Proof.Machine

/-- The next scheduled instruction with the state after it is taken, or why there is none. -/
inductive Fetched where
  | instr (i : Instr) (s : State)
  | rejected (r : Reject)
  | empty
deriving DecidableEq, Repr

/-- Take and decode the entry at the front of the schedule (R16, R97). -/
def fetch (s : State) : Fetched :=
  match decodeSlots s.sched with
  | none => .empty
  | some (.error r) => .rejected r
  | some (.ok (i, rest)) => .instr i (s.takeSlot rest)

/-- The state with the instruction of a table word next on its schedule. -/
def placeTableWord (s : State) (nbits w : Nat) : State := s.schedule (tableSlots nbits w)

end Sys2Proof.Machine
end

