-- ==== Sys2Proof/Machine/Step.lean ====
section
/-!
DEFINITION. One step: the next scheduled instruction is taken, decoded and run (00_scope.md R16; 60_exceptions.md R261, R263).
-/

namespace Sys2Proof.Machine

/-- One step of the machine. A refused label refuses the step, and with it the whole run (R261). -/
def step (s : State) : Host.Outcome State Fault Refusal :=
  match fetch s with
  | .instr i s' => exec i s'
  | .rejected r => .refused (.rejected r)
  | .empty => hold .scheduleEmpty

/-- The state with the instruction whose opcode-table word is `w` scheduled next (log entry 4). -/
def State.withFetchWord (s : State) (nbits w : Nat) : State := placeTableWord s nbits w

end Sys2Proof.Machine
end

