-- ==== Sys2Proof/Machine/Assembly.lean ====
section
/-!
DEFINITION. The agents of the operations (60_exceptions.md R262), and the notation of programs: mnemonics, the syntax of a line and
the pseudo-operations (30_encoding.md R95, R100, R101).
-/

namespace Sys2Proof.Machine

/-- The agents (R262); `operatorUnit` stands for the point-wise operators run on their own (log entry 7). -/
inductive Agent where
  | firmware
  | link
  | hostReader
  | hostBufferUpdate
  | hostCompute
  | secondFeed
  | resetEnvironment
  | operatorUnit
deriving DecidableEq, Repr

/-- The agent that performs an operation (R262). -/
def agentOf : Instr → Agent
  | .smpConvert _ => .firmware
  | .smpEmit => .firmware
  | .lnkDrop => .link
  | .lnkDown => .link
  | .lnkUp => .link
  | .decIngest => .hostReader
  | .decUnpack => .hostReader
  | .decSlip => .hostReader
  | .decPush => .hostBufferUpdate
  | .envFeed _ => .secondFeed
  | .mthCreate _ _ _ => .hostCompute
  | .mthDelete _ => .hostCompute
  | .mthRecompute _ => .hostCompute
  | .mthBegin _ => .hostCompute
  | .mthElem _ => .hostCompute
  | .rstFw => .resetEnvironment
  | .rstHost => .resetEnvironment
  | .add => .operatorUnit
  | .subAB => .operatorUnit
  | .subBA => .operatorUnit
  | .mul => .operatorUnit
  | .divAB => .operatorUnit
  | .divBA => .operatorUnit

/-! ### Pseudo-operations -/

/-- One item of a program: an operation, its repetition or a pseudo-operation (R101). -/
inductive Item where
  | op (i : Instr)
  /-- `OP ×n`. -/
  | times (n : Nat) (i : Instr)
  /-- `SMP.GROUP v0, v1, v2, v3`. -/
  | group (q : Quad)
  /-- `DEC.PACKET`. -/
  | packet
  /-- `DEC.DRAIN n`. -/
  | drain (n : Nat)
  /-- `MTH.RUN id`. -/
  | run (id : Nat)
deriving DecidableEq, Repr

/-- The overlap length of a channel's operand buffers; 0 for an id that is not live (R217). -/
def overlap (s : State) (id : Nat) : Nat :=
  match s.desc id with
  | none => 0
  | some d =>
    match operandBuffers s d with
    | none => 0
    | some (bufA, bufB) => min bufA.length bufB.length

/-- The operations an item stands for, in the state it is taken in (R101). -/
def expand (s : State) : Item → List Instr
  | .op i => [i]
  | .times n i => List.replicate n i
  | .group q => [.smpConvert q.s0, .smpConvert q.s1, .smpConvert q.s2, .smpConvert q.s3, .smpEmit]
  | .packet => List.replicate 5 .decIngest ++ [.decUnpack]
  | .drain n => List.replicate n .decPush
  | .run id =>
    if s.cfg.recomputeAtomic then [.mthRecompute id]
    else .mthBegin id :: List.replicate (overlap s id + 1) (.mthElem id)

/-- The schedule entries of an operation: its label, or nothing for an operator, which has none (R95). -/
def slotsOf (i : Instr) : List Slot :=
  match toLabel i with
  | some l => [.label l]
  | none => []

/-! ### Lines of a program (R100)

A line is split into words at spaces, tabs and commas; a semicolon starts a comment. Mnemonics are matched letter for letter
(log entry 11). -/

/-- The characters that separate words. -/
def isSeparator (c : Char) : Bool := c == ' ' || c == ',' || c == '\t'

/-- The words of a line, `cur` holding the letters of the present word in reverse. -/
def wordsFrom (cur : List Char) : List Char → List (List Char)
  | [] => if cur = [] then [] else [cur.reverse]
  | c :: rest =>
    if c = ';' then (if cur = [] then [] else [cur.reverse])
    else if isSeparator c then (if cur = [] then wordsFrom [] rest else cur.reverse :: wordsFrom [] rest)
    else wordsFrom (c :: cur) rest

/-- The digits in the order of their values, each with its spellings (R12). -/
def numerals : List (List Char) :=
  ["0", "1", "2", "3", "4", "5", "6", "7", "8", "9", "aA", "bB", "cC", "dD", "eE", "fF"].map String.toList

/-- The value of the digits of a number, `acc` being that of those before; a digit must be one of the first `base`. -/
def digitsFrom (base acc : Nat) : List Char → Option Nat
  | [] => some acc
  | c :: rest =>
    match (numerals.take base).findIdx? (·.contains c) with
    | some d => digitsFrom base (base * acc + d) rest
    | none => none

/-- A number in decimal, hexadecimal (`0x`) or binary (`0b`) (R12, R100). -/
def parseNumber : List Char → Option Nat
  | [] => none
  | '0' :: 'x' :: d :: rest => digitsFrom 16 0 (d :: rest)
  | '0' :: 'b' :: d :: rest => digitsFrom 2 0 (d :: rest)
  | d :: rest => digitsFrom 10 0 (d :: rest)

/-- The spelling of an operator word by its mnemonic (R100). -/
def operatorWord (w : List Char) : Option Nat :=
  if w = ['A', 'D', 'D'] then some 0b000
  else if w = ['S', 'U', 'B', '.', 'A', 'B'] then some 0b001
  else if w = ['S', 'U', 'B', '.', 'B', 'A'] then some 0b101
  else if w = ['M', 'U', 'L'] then some 0b010
  else if w = ['D', 'I', 'V', '.', 'A', 'B'] then some 0b011
  else if w = ['D', 'I', 'V', '.', 'B', 'A'] then some 0b111
  else none

/-- An argument of a label by its kind (R100). -/
def parseArg : ArgKind → List Char → Option Nat
  | .sample, w => parseNumber w
  | .ctl, w => (operatorWord w).orElse fun _ => parseNumber w
  | .chan, w =>
    if w = ['C', 'H', '1'] then some 0
    else if w = ['C', 'H', '2'] then some 1
    else parseNumber w

/-- The arguments of a label; none where their number is wrong. -/
def parseArgs : List ArgKind → List (List Char) → Option (List Nat)
  | [], [] => some []
  | k :: ks, w :: ws =>
    match parseArg k w, parseArgs ks ws with
    | some v, some vs => some (v :: vs)
    | _, _ => none
  | _, _ => none

/-- The mnemonics of the labels and their opcodes (R95). -/
def opcodeNames : List (String × Nat) :=
  [("SMP.CONVERT", 0x01), ("SMP.EMIT", 0x02),
   ("LNK.DROP", 0x11), ("LNK.DOWN", 0x12), ("LNK.UP", 0x13),
   ("DEC.INGEST", 0x21), ("DEC.UNPACK", 0x22), ("DEC.SLIP", 0x23), ("DEC.PUSH", 0x24), ("ENV.FEED", 0x25),
   ("MTH.CREATE", 0x31), ("MTH.DELETE", 0x32), ("MTH.RECOMPUTE", 0x33), ("MTH.BEGIN", 0x34), ("MTH.ELEM", 0x35),
   ("RST.FW", 0x51), ("RST.HOST", 0x52)]

/-- The opcode a mnemonic names. -/
def findOpcode (w : List Char) : List (String × Nat) → Option Nat
  | [] => none
  | (name, op) :: rest => if name.toList = w then some op else findOpcode w rest

/-- A label of a program: its mnemonic and arguments, decoded as any label is (R100, R96). -/
def parseOp : List (List Char) → Option Instr
  | [] => none
  | w :: ws =>
    match findOpcode w opcodeNames with
    | none => none
    | some op =>
      match (argKinds op).bind (parseArgs · ws) with
      | none => none
      | some args => (decodeLabel ⟨BitVec.ofNat 8 op, args⟩).toOption

/-- A code of a group, in [0, 1023]. -/
def parseCode (w : List Char) : Option Code :=
  match parseNumber w with
  | some v => if v < 1024 then some (BitVec.ofNat 10 v) else none
  | none => none

/-- The repetition count at the end of a line, with the words before it (R101). -/
def splitTimes (ws : List (List Char)) : Option (List (List Char) × Nat) :=
  match ws.reverse with
  | ('×' :: ds) :: front => (parseNumber ds).map fun n => (front.reverse, n)
  | _ => none

/-- The item the words of a line spell, if they spell one (R100, R101). -/
def parseWords (ws : List (List Char)) : Option Item :=
  match splitTimes ws with
  | some (front, n) => (parseOp front).map (.times n)
  | none =>
    match ws with
    | [g, v0, v1, v2, v3] =>
      if g = "SMP.GROUP".toList then
        match parseCode v0, parseCode v1, parseCode v2, parseCode v3 with
        | some s0, some s1, some s2, some s3 => some (.group ⟨s0, s1, s2, s3⟩)
        | _, _, _, _ => none
      else (parseOp ws).map .op
    | [g] => if g = "DEC.PACKET".toList then some .packet else (parseOp ws).map .op
    | [g, n] =>
      if g = "DEC.DRAIN".toList then (parseNumber n).map .drain
      else if g = "MTH.RUN".toList then (parseArg .chan n).map .run
      else (parseOp ws).map .op
    | _ => (parseOp ws).map .op

/-- A line of a program: nothing for a blank line or a comment, an item, or an error (R100). -/
def parseLine (line : String) : Option (List Item) :=
  match wordsFrom [] line.toList with
  | [] => some []
  | ws => (parseWords ws).map fun it => [it]

end Sys2Proof.Machine
end

