-- ==== Sys2Proof/Machine/Flags.lean ====
section
/-!
DEFINITION. The block has no status flags and no condition codes (10_state.md R38); what an operation leaves for its caller is a status
word (60_exceptions.md R251), whose codes are given here.
-/

namespace Sys2Proof.Machine

/-- The code of a status or event (R251). -/
def Status.code : Status → Nat
  | .ok _ => 0
  | .nestingTooDeep => 1
  | .channelLimitReached => 2
  | .streamDesync => 3
  | .linkLost => 4
  | .invalidChannel => 5

/-- What kind of word it is (R251). -/
inductive StatusKind where
  | status
  | countedEvent
  | reportedEvent
deriving DecidableEq, Repr

/-- The kind of a status or event (R251). -/
def Status.kind : Status → StatusKind
  | .ok _ => .status
  | .nestingTooDeep => .status
  | .channelLimitReached => .status
  | .streamDesync => .countedEvent
  | .linkLost => .reportedEvent
  | .invalidChannel => .status

/-- The word is a rejection: a status other than OK (R252). -/
def Status.isRejection : Status → Bool
  | .ok _ => false
  | .nestingTooDeep => true
  | .channelLimitReached => true
  | .streamDesync => false
  | .linkLost => false
  | .invalidChannel => true

end Sys2Proof.Machine
end

