-- ==== Sys2Proof/Safety.lean ====
section
/-!
DEFINITION. The terms in which claims about the machine are made: the invariant every step keeps (10_state.md R21 to R36, 42_math.md
R220), runs, refused labels and quiescence (60_exceptions.md R261, R263), alignment (70_reset_and_hazards.md R284), the codes in flight (41_decoder.md
R163) and the fairness premise (42_math.md R215).
-/

namespace Sys2Proof.Machine

/-- The firmware's slots below `k` are written, the others are not, and `k` is at most 4 (R21, R22). -/
def Firmware.wf (fw : Firmware) : Prop :=
  fw.k ≤ 4 ∧ ∀ j : Fin 4, fw.acc[j].isSome = decide (j.val < fw.k)

/-- A descriptor under a configuration: level 1, physical operands, a bounded buffer, and a work list as long as its index,
none of them when recompute is atomic (R33, R34, R35). -/
def Descriptor.wf (cfg : Config) (d : Descriptor) : Prop :=
  d.level = 1 ∧ d.a < physicalChannels ∧ d.b < physicalChannels ∧
  d.buf.length ≤ cfg.sampleBufferDepth ∧
  ∀ i acc, d.work = some (i, acc) →
    acc.length = i ∧ i ≤ cfg.sampleBufferDepth ∧ cfg.recomputeAtomic = false

/-- The channel store: bounded physical buffers, and a canonical map of at most 3 well-formed descriptors whose ids are
derived ids already given out (R30 to R36, R220). -/
def Channels.wf (cfg : Config) (ch : Channels) : Prop :=
  (∀ p : Fin 2, ch.phys[p].length ≤ cfg.sampleBufferDepth) ∧
  derivedCanonical ch.derived ∧ ch.derived.length ≤ maxDerived ∧
  physicalChannels ≤ ch.nextId ∧
  ∀ e ∈ ch.derived, physicalChannels ≤ e.1 ∧ e.1 < ch.nextId ∧ e.2.wf cfg

/-- The invariant: every bound and shape the spec gives the state, and an empty wire while the link is absent (R21 to R36,
R61, R220; the last from R122, R159 and R160). -/
def State.Inv (s : State) : Prop :=
  s.cfg.wf ∧ s.fw.wf ∧ (s.linkUp = false → s.wire = []) ∧
  s.dec.asm.length ≤ packetBytes ∧ s.dec.queue.length ≤ s.cfg.hostQueueDepth ∧
  s.ch.wf s.cfg

/-- The fields of the spec's state, without the configuration and the model's own fields (R20). -/
def State.sameBlock (s t : State) : Prop :=
  t.fw = s.fw ∧ t.wire = s.wire ∧ t.linkUp = s.linkUp ∧ t.dec = s.dec ∧ t.ch = s.ch

/-- A run: the operations taken one after another, each enabled at its turn; none where one is not (R263). -/
def runOps : List Instr → State → Option State
  | [], s => some s
  | i :: is, s =>
    match exec i s with
    | .next t => runOps is t
    | .fault _ => none
    | .refused _ => none

/-- The schedule's next label is refused for this reason: a label as such, or the bytes before the first entry that is no byte
(R97, R98, R261). -/
def frontRefused (es : List Slot) (r : Reject) : Prop :=
  (∃ l more, es = .label l :: more ∧ decodeLabel l = .error r) ∨
  (∃ b bs more, es = (b :: bs).map .byte ++ more ∧ (∀ c, more.head? ≠ some (.byte c)) ∧ decode (b :: bs) = .error r)

/-- Quiescent: nothing converted, in flight, in the window or queued, and no recompute in flight (R263). -/
def State.quiescent (s : State) : Bool :=
  decide (s.fw.k = 0) && s.wire.isEmpty && s.dec.asm.isEmpty && s.dec.queue.isEmpty &&
  s.ch.derived.all fun e => e.2.work.isNone

/-- How far the window and the wire together are from a packet boundary. The firmware appends whole packets only and bytes
leave at the head, so the wire's last byte is always a byte4. DEDUCED (log entry 12; safe): with no loss between window
and wire, the window's first byte is a byte0 exactly when this is 0 (R67, R123). -/
def State.misalignment (s : State) : Nat := (s.dec.asm.length + s.wire.length) % 5

/-- The launch premise "aligned start" (R284; log entry 12). -/
def State.alignedStart (s : State) : Bool := s.dec.asm.isEmpty && decide (s.misalignment = 0)

/-- The codes of a sequence of whole packets; a partial packet at the end gives none (R91). -/
def unpackAll : List Byte → List Code
  | b0 :: b1 :: b2 :: b3 :: b4 :: rest => quadCodes (unpack b0 b1 b2 b3 b4) ++ unpackAll rest
  | _ => []

/-- The codes converted for the present group (R22). -/
def Firmware.codes (fw : Firmware) : List Code := (fw.acc.toList.take fw.k).filterMap id

/-- Every sample between the converter and the owner's buffer, oldest first: the buffer, then the queue, the window, the wire
and the present group, scaled (R163). -/
def State.inFlight (s : State) : List Rat :=
  s.ch.phys[s.cfg.owner] ++
  (s.dec.queue ++ unpackAll (s.dec.asm ++ s.wire) ++ s.fw.codes).map (scale s.cfg)

/-- What the operator gives a value paired with itself (R218). -/
def sameOperandResult (op : Instr) (x : Rat) : XVal :=
  match op with
  | .add => .fin (2 * x)
  | .mul => .fin (x ^ 2)
  | .divAB => .fin 1
  | .divBA => .fin 1
  | _ => .fin 0

/-- The 40-bit word, or longer stream, whose little-endian serialisation a list of bytes is (R62, R162). -/
def bytesValue : List Byte → Nat
  | [] => 0
  | b :: rest => b.toNat + 256 * bytesValue rest

/-- The fairness premise of R215 on an endless run, `labels n` taking `states n` to `states (n + 1)`: after a step that
changes an operand buffer of a live channel, a recompute of it that starts later completes, unless the channel is deleted. -/
def RecomputeFair (labels : Nat → Instr) (states : Nat → State) : Prop :=
  ∀ n id d, (states n).desc id = some d →
    ((states (n + 1)).physBuf d.a ≠ (states n).physBuf d.a ∨
      (states (n + 1)).physBuf d.b ≠ (states n).physBuf d.b) →
    ∃ m, n < m ∧
      ((states m).desc id = none ∨ labels m = .mthRecompute id ∨
        (labels m = .mthBegin id ∧
          ∃ j e, m < j ∧ labels j = .mthElem id ∧ (states (j + 1)).desc id = some e ∧ e.work = none))

end Sys2Proof.Machine
end

