-- ==== Sys2Proof/Certificates/Slice0/Obligations.lean ====
section
/-!
DEFINITION. The statements for the provers, one per rule or group of rules of spec/; OBLIGATIONS.json lists them.
-/

open Sys2Proof Sys2Proof.Machine

/-! ### Encodings -/

/-- R95, R96, R98: each opcode with its arguments decodes to its operation, and a few byte forms written out from the table, with
other bytes after them, do. -/
def Obligations.OpcodesDecodeToOperations : Prop :=
  ∀ (v : Code) (ctl : Ctl) (a b id : Nat),
    decodeLabel ⟨0x01, [v.toNat]⟩ = .ok (.smpConvert v) ∧
    decodeLabel ⟨0x02, []⟩ = .ok .smpEmit ∧
    decodeLabel ⟨0x11, []⟩ = .ok .lnkDrop ∧
    decodeLabel ⟨0x12, []⟩ = .ok .lnkDown ∧
    decodeLabel ⟨0x13, []⟩ = .ok .lnkUp ∧
    decodeLabel ⟨0x21, []⟩ = .ok .decIngest ∧
    decodeLabel ⟨0x22, []⟩ = .ok .decUnpack ∧
    decodeLabel ⟨0x23, []⟩ = .ok .decSlip ∧
    decodeLabel ⟨0x24, []⟩ = .ok .decPush ∧
    decodeLabel ⟨0x25, [v.toNat]⟩ = .ok (.envFeed v) ∧
    decodeLabel ⟨0x31, [ctl.toNat, a, b]⟩ = .ok (.mthCreate ctl a b) ∧
    decodeLabel ⟨0x32, [id]⟩ = .ok (.mthDelete id) ∧
    decodeLabel ⟨0x33, [id]⟩ = .ok (.mthRecompute id) ∧
    decodeLabel ⟨0x34, [id]⟩ = .ok (.mthBegin id) ∧
    decodeLabel ⟨0x35, [id]⟩ = .ok (.mthElem id) ∧
    decodeLabel ⟨0x51, []⟩ = .ok .rstFw ∧
    decodeLabel ⟨0x52, []⟩ = .ok .rstHost ∧
    decode [0x01, 0x90, 0x01, 0x02] = .ok (.smpConvert 400, [0x02]) ∧
    decode [0x25, 0x03, 0x02] = .ok (.envFeed 515, []) ∧
    decode [0x31, 0x05, 0x00, 0x01, 0x33] = .ok (.mthCreate 0b101 0 1, [0x33]) ∧
    decode [0x13] = .ok (.lnkUp, []) ∧
    decode [0x22, 0x24] = .ok (.decUnpack, [0x24]) ∧
    decode [0x35, 0x02] = .ok (.mthElem 2, []) ∧
    decode [0x52] = .ok (.rstHost, [])

/-- R92, R93, R208: each of the 8 operator words stands for its operator, and a descriptor that holds the word computes that
operator's result; 100 and 110 are aliases of 000 and 010. -/
def Obligations.OperatorWordTable : Prop :=
  (decodeCtl 0b000 = .add ∧ decodeCtl 0b100 = .add ∧ decodeCtl 0b001 = .subAB ∧ decodeCtl 0b101 = .subBA ∧
    decodeCtl 0b010 = .mul ∧ decodeCtl 0b110 = .mul ∧ decodeCtl 0b011 = .divAB ∧ decodeCtl 0b111 = .divBA) ∧
  ∀ x y : Rat,
    applyCtl 0b000 x y = .fin (x + y) ∧ applyCtl 0b100 x y = .fin (x + y) ∧
    applyCtl 0b001 x y = .fin (x - y) ∧ applyCtl 0b101 x y = .fin (y - x) ∧
    applyCtl 0b010 x y = .fin (x * y) ∧ applyCtl 0b110 x y = .fin (x * y) ∧
    applyCtl 0b011 x y = divide x y ∧ applyCtl 0b111 x y = divide y x

/-- R93, R95, R98: decoding the encoding of any well-formed instruction gives it back, whatever bytes come after a byte form. -/
def Obligations.DecodeOfEncodeIsTheInstruction : Prop :=
  ∀ (i : Instr) (rest : List Byte), i.wf = true →
    (∃ bs, encode i = .bytes bs ∧ decode (bs ++ rest) = .ok (i, rest)) ∨
    (∃ c, encode i = .operator c ∧ decodeCtl c = i)

/-- R97, R98: the bytes the decoder takes are the encoding of the instruction it gives, so a byte form has one meaning and no
bit of it is ignored, and an id of 256 or more has no byte form. -/
def Obligations.DecodedBytesAreTheEncoding : Prop :=
  ∀ (bs : List Byte) (i : Instr) (rest : List Byte), decode bs = .ok (i, rest) →
    i.wf = true ∧ ∃ front, encode i = .bytes front ∧ bs = front ++ rest

/-- R97: every opcode outside R95's table is refused as reserved, in byte form and as a label with any arguments, and the machine
has no step for it; every other opcode is never refused as reserved. -/
def Obligations.ReservedOpcodesAreRefused : Prop :=
  ∀ (op : Byte) (args : List Nat) (rest : List Byte) (s : State) (more : List Slot),
    let reserved := op.toNat = 0x00 ∨ (0x03 ≤ op.toNat ∧ op.toNat ≤ 0x10) ∨ (0x14 ≤ op.toNat ∧ op.toNat ≤ 0x20) ∨
      (0x26 ≤ op.toNat ∧ op.toNat ≤ 0x30) ∨ (0x36 ≤ op.toNat ∧ op.toNat ≤ 0x50) ∨ 0x53 ≤ op.toNat
    (decode (op :: rest) = .error .reservedOpcode ↔ reserved) ∧
    (decodeLabel ⟨op, args⟩ = .error .reservedOpcode ↔ reserved) ∧
    (reserved → step { s with sched := .byte op :: more } = .refused (.rejected .reservedOpcode)) ∧
    (reserved → step { s with sched := .label ⟨op, args⟩ :: more } = .refused (.rejected .reservedOpcode))

/-- R96: samples up to 1023, operator words up to 7 and ids of any size pass unchanged; a larger sample or word is refused; a
creation or deletion that names an id that does not exist replies InvalidChannel. -/
def Obligations.ArgumentRanges : Prop :=
  (∀ v, v ≤ 1023 → ∃ c : Code, c.toNat = v ∧ decodeLabel ⟨0x01, [v]⟩ = .ok (.smpConvert c) ∧
    decodeLabel ⟨0x25, [v]⟩ = .ok (.envFeed c)) ∧
  (∀ v, 1023 < v → decodeLabel ⟨0x01, [v]⟩ = .error .sampleOutOfRange ∧
    decodeLabel ⟨0x25, [v]⟩ = .error .sampleOutOfRange) ∧
  (∀ c a b, c ≤ 7 → ∃ w : Ctl, w.toNat = c ∧ decodeLabel ⟨0x31, [c, a, b]⟩ = .ok (.mthCreate w a b)) ∧
  (∀ c a b, 7 < c → decodeLabel ⟨0x31, [c, a, b]⟩ = .error .ctlOutOfRange) ∧
  (∀ id, decodeLabel ⟨0x32, [id]⟩ = .ok (.mthDelete id) ∧ decodeLabel ⟨0x33, [id]⟩ = .ok (.mthRecompute id) ∧
    decodeLabel ⟨0x34, [id]⟩ = .ok (.mthBegin id) ∧ decodeLabel ⟨0x35, [id]⟩ = .ok (.mthElem id)) ∧
  (∀ s : State, ∀ c a b, (s.chanExists a = false ∨ s.chanExists b = false) →
    exec (.mthCreate c a b) s = .next { s with reply := some .invalidChannel }) ∧
  (∀ s : State, ∀ id, 2 ≤ id → s.chanExists id = false →
    exec (.mthDelete id) s = .next { s with reply := some .invalidChannel })

/-- R98: the length of a byte form is fixed by its opcode, a byte form with a nonzero must-be-zero bit is refused, and so is one
cut short. -/
def Obligations.ByteFormLengthsAndZeroBits : Prop :=
  (∀ i bs, encode i = .bytes bs →
    bs.length = match i with
      | .smpConvert _ | .envFeed _ => 3
      | .mthCreate _ _ _ => 4
      | .mthDelete _ | .mthRecompute _ | .mthBegin _ | .mthElem _ => 2
      | _ => 1) ∧
  (∀ (lo hi : Byte) rest, 4 ≤ hi.toNat →
    decode (0x01 :: lo :: hi :: rest) = .error .sampleOutOfRange ∧
    decode (0x25 :: lo :: hi :: rest) = .error .sampleOutOfRange) ∧
  (∀ (c a b : Byte) rest, 8 ≤ c.toNat → decode (0x31 :: c :: a :: b :: rest) = .error .ctlOutOfRange) ∧
  (∀ (op : Byte) bs n, labelLength op = some n → (op :: bs).length < n → decode (op :: bs) = .error .truncated)

/-- R91: unpacking inverts packing and packing inverts unpacking, so every five bytes are the packet of exactly one quadruple;
each code is assembled from the bits the rule names, written as sums of disjoint fields. -/
def Obligations.PackAndUnpackAreInverse : Prop :=
  (∀ q : Quad, ∃ b0 b1 b2 b3 b4, pack q = [b0, b1, b2, b3, b4] ∧ unpack b0 b1 b2 b3 b4 = q) ∧
  (∀ b0 b1 b2 b3 b4 : Byte, pack (unpack b0 b1 b2 b3 b4) = [b0, b1, b2, b3, b4] ∧
    (∃ q, pack q = [b0, b1, b2, b3, b4] ∧ ∀ q', pack q' = [b0, b1, b2, b3, b4] → q' = q) ∧
    (unpack b0 b1 b2 b3 b4).s0.toNat = b0.toNat + 256 * (b1.toNat % 4) ∧
    (unpack b0 b1 b2 b3 b4).s1.toNat = b1.toNat / 4 + 64 * (b2.toNat % 16) ∧
    (unpack b0 b1 b2 b3 b4).s2.toNat = b2.toNat / 16 + 16 * (b3.toNat % 64) ∧
    (unpack b0 b1 b2 b3 b4).s3.toNat = b3.toNat / 64 + 4 * b4.toNat)

/-- R62: the packet is the little-endian serialisation of the 40-bit word of its four samples, and each sample stands in its ten
bits of that word. -/
def Obligations.PacketIsLittleEndianWord : Prop :=
  ∀ q : Quad,
    let w := q.s0.toNat ||| (q.s1.toNat <<< 10) ||| (q.s2.toNat <<< 20) ||| (q.s3.toNat <<< 30)
    w < 2 ^ 40 ∧
    (pack q).map BitVec.toNat = (List.range 5).map (fun i => (w >>> (8 * i)) % 256) ∧
    (quadCodes q).map BitVec.toNat = (List.range 4).map (fun j => (w >>> (10 * j)) % 1024)

/-- R162: a window that starts at byte `j` of a stream decodes to the four ten-bit fields of the stream from bit 8j, and the
firmware's samples are the stream's ten-bit fields in order. -/
def Obligations.WindowDecodesStreamBits : Prop :=
  (∀ (es : List Byte) (j : Nat) (b0 b1 b2 b3 b4 : Byte), (es.drop j).take 5 = [b0, b1, b2, b3, b4] →
    (quadCodes (unpack b0 b1 b2 b3 b4)).map BitVec.toNat =
      (List.range 4).map (fun t => (bytesValue es >>> (8 * j + 10 * t)) % 1024)) ∧
  (∀ qs : List Quad, (qs.flatMap quadCodes).map BitVec.toNat =
    (List.range (4 * qs.length)).map (fun m => (bytesValue (qs.flatMap pack) >>> (10 * m)) % 1024))

/-- R162: a window aligned with packet `n` decodes to its four samples; a window `r` bytes into packet `n`, for `r` from 1 to 4,
decodes to codes that each mix two adjacent firmware samples, at the bit offset `8j mod 10` of 8, 6, 4 or 2. -/
def Obligations.MisalignedWindowMixesSamples : Prop :=
  ∀ (qs : List Quad) (j t : Nat) (b0 b1 b2 b3 b4 : Byte),
    ((qs.flatMap pack).drop j).take 5 = [b0, b1, b2, b3, b4] → t < 4 →
    let sample (m : Nat) : Nat := ((qs.flatMap quadCodes).map BitVec.toNat).getD m 0
    let m := (8 * j + 10 * t) / 10
    let o := 8 * j % 10
    ((quadCodes (unpack b0 b1 b2 b3 b4)).map BitVec.toNat).getD t 0 =
      sample m / 2 ^ o + (sample (m + 1) % 2 ^ o) * 2 ^ (10 - o) ∧
    o = [0, 8, 6, 4, 2].getD (j % 5) 0

/-- R40: the bounded push appends while there is room and evicts the oldest when full; the length after it is
`min(len + 1, cap)`, the last element is the one pushed, and a list longer than `cap` is cut to it. -/
def Obligations.BoundedPushEvictsOldest : Prop :=
  ∀ (xs : List Rat) (x : Rat) (cap : Nat), 1 ≤ cap →
    (xs.length < cap → rbPush xs x cap = xs ++ [x]) ∧
    (xs.length = cap → rbPush xs x cap = xs.tail ++ [x]) ∧
    (rbPush xs x cap).length = min (xs.length + 1) cap ∧
    (rbPush xs x cap).getLast? = some x ∧
    ∃ evicted, xs ++ [x] = evicted ++ rbPush xs x cap

/-! ### Sampler -/

/-- R121: a conversion is stored in slot `k` and `k` advances, nothing else changes; with a full group it has no step. -/
def Obligations.ConvertStoresSample : Prop :=
  ∀ (v : Code) (s : State),
    (∀ h : s.fw.k < 4, exec (.smpConvert v) s =
      .next { s with fw := { k := s.fw.k + 1, acc := s.fw.acc.set s.fw.k (some v) h } }) ∧
    (¬ s.fw.k < 4 → exec (.smpConvert v) s = .fault (.noStep .groupFull)) ∧
    decodeLabel ⟨0x01, [v.toNat]⟩ = .ok (.smpConvert v) ∧
    exec (.smpConvert 100) { s with fw := ⟨0, s.fw.acc⟩ } =
      .next { s with fw := ⟨1, s.fw.acc.set 0 (some 100)⟩ }

/-- R122: with a full group the packet of the four samples, byte0 first, is appended to the wire if the link is up and lost if not,
the group starts over and nothing else changes; without a full group the emission has no step. -/
def Obligations.EmitTransmitsPacket : Prop :=
  ∀ (s : State),
    (∀ s0 s1 s2 s3 : Code, s.fw = ⟨4, #v[some s0, some s1, some s2, some s3]⟩ →
      exec .smpEmit s = .next { s with
        fw := ⟨0, #v[none, none, none, none]⟩
        wire := if s.linkUp then s.wire ++ pack ⟨s0, s1, s2, s3⟩ else s.wire }) ∧
    (s.fw.k ≠ 4 → exec .smpEmit s = .fault (.noStep .groupNotFull)) ∧
    decodeLabel ⟨0x02, []⟩ = .ok .smpEmit ∧
    pack ⟨100, 200, 300, 400⟩ = [0x64, 0x20, 0xC3, 0x12, 0x64] ∧
    pack ⟨0, 0, 0, 0⟩ = [0x00, 0x00, 0x00, 0x00, 0x00] ∧
    pack ⟨1023, 1023, 1023, 1023⟩ = [0xFF, 0xFF, 0xFF, 0xFF, 0xFF]

/-- R263, R120: in every state that meets the invariant exactly one of the firmware's two operations is enabled. -/
def Obligations.FirmwareHasExactlyOneStep : Prop :=
  ∀ (s : State) (v : Code), s.Inv →
    ((∃ t, exec (.smpConvert v) s = .next t) ∧ ∀ t, exec .smpEmit s ≠ .next t) ∨
    ((∃ t, exec .smpEmit s = .next t) ∧ ∀ t, exec (.smpConvert v) s ≠ .next t)

/-- R120: in every run from the top of the firmware's loop without a firmware reset, every fifth operation of the firmware, and no
other, is an emission. -/
def Obligations.FirmwareLabelsFollowTheLoop : Prop :=
  ∀ (ops : List Instr) (s t : State), s.fw.k = 0 → .rstFw ∉ ops → runOps ops s = some t →
    ∀ (j : Nat) (i : Instr), (ops.filter fun o => agentOf o = .firmware)[j]? = some i →
      (i = .smpEmit ↔ j % 5 = 4)

/-- R123, R25, R76: the wire receives bytes only from an emission, one whole packet at its end; it loses them only at its head, one
by one, or all at once with the link. -/
def Obligations.WireGrowsByPacketsAndShrinksAtItsHead : Prop :=
  ∀ (i : Instr) (s t : State), exec i s = .next t →
    t.wire = s.wire ∨
    (i = .smpEmit ∧ s.linkUp = true ∧ ∃ q, t.wire = s.wire ++ pack q) ∨
    ((i = .decIngest ∨ i = .lnkDrop) ∧ ∃ b, s.wire = b :: t.wire) ∨
    (i = .lnkDown ∧ t.wire = [])

/-! ### Link -/

/-- R152: the oldest byte in flight is lost and nothing else changes; with an empty wire the loss has no step. -/
def Obligations.DropLosesOldestByte : Prop :=
  ∀ (s : State),
    (∀ b rest, s.wire = b :: rest → exec .lnkDrop s = .next { s with wire := rest }) ∧
    (s.wire = [] → exec .lnkDrop s = .fault (.noStep .wireEmpty))

/-- R159, R251: losing the link empties the wire and is reported; window, queue, buffers and descriptors are kept. -/
def Obligations.LinkLossKeepsHostState : Prop :=
  ∀ (s : State),
    (s.linkUp = true → exec .lnkDown s =
      .next { s with linkUp := false, wire := [], reply := some .linkLost }) ∧
    (s.linkUp = false → exec .lnkDown s = .fault (.noStep .linkAbsent))

/-- R160: the link's return changes only `link_up`. -/
def Obligations.LinkReturnOnlySetsLink : Prop :=
  ∀ (s : State),
    (s.linkUp = false → exec .lnkUp s = .next { s with linkUp := true }) ∧
    (s.linkUp = true → exec .lnkUp s = .fault (.noStep .linkPresent))

/-! ### Decoder -/

/-- R151: the oldest byte of the wire moves to the end of the window, exactly when the link is up, the wire is not empty and the
window is not full. -/
def Obligations.IngestMovesOldestByte : Prop :=
  ∀ (s : State),
    (∀ b rest, s.linkUp = true → s.wire = b :: rest → s.dec.asm.length < 5 →
      exec .decIngest s = .next { s with wire := rest, dec := { s.dec with asm := s.dec.asm ++ [b] } }) ∧
    (s.linkUp = false ∨ s.wire = [] ∨ 5 ≤ s.dec.asm.length → ∃ why, exec .decIngest s = .fault (.noStep why))

/-- R153: a full window judged plausible is decoded, its four codes are queued in order with an eviction each, and the window is
emptied; otherwise there is no step. -/
def Obligations.UnpackQueuesFourCodes : Prop :=
  ∀ (s : State),
    (∀ b0 b1 b2 b3 b4, s.dec.asm = [b0, b1, b2, b3, b4] →
      detect s.cfg.desyncDetect (detectContext s) .plausible = true →
      exec .decUnpack s =
        let q := unpack b0 b1 b2 b3 b4
        let cap := s.cfg.hostQueueDepth
        .next { s with dec := { s.dec with
          asm := []
          queue := rbPush (rbPush (rbPush (rbPush s.dec.queue q.s0 cap) q.s1 cap) q.s2 cap) q.s3 cap } }) ∧
    (s.dec.asm.length ≠ 5 ∨ detect s.cfg.desyncDetect (detectContext s) .plausible = false →
      ∃ why, exec .decUnpack s = .fault (.noStep why))

/-- R153, R29: after an unpack the queue holds the newest codes of the old queue followed by the four, up to its depth, so a full
queue loses its oldest codes and a queue with room loses none. -/
def Obligations.UnpackKeepsNewestCodes : Prop :=
  ∀ (s t : State) (b0 b1 b2 b3 b4 : Byte), s.dec.asm = [b0, b1, b2, b3, b4] →
    1 ≤ s.cfg.hostQueueDepth → s.dec.queue.length ≤ s.cfg.hostQueueDepth → exec .decUnpack s = .next t →
    t.dec.queue = (s.dec.queue ++ quadCodes (unpack b0 b1 b2 b3 b4)).drop
        (s.dec.queue.length + 4 - s.cfg.hostQueueDepth) ∧
    t.dec.queue.length = min (s.dec.queue.length + 4) s.cfg.hostQueueDepth

/-- R154: a full window judged implausible loses its oldest byte and one slip is counted; otherwise there is no step. -/
def Obligations.SlipDiscardsByteAndCounts : Prop :=
  ∀ (s : State),
    (s.dec.asm.length = 5 → detect s.cfg.desyncDetect (detectContext s) .implausible = true →
      exec .decSlip s = .next { s with dec := { s.dec with
        asm := s.dec.asm.tail, desyncCount := s.dec.desyncCount + 1 } }) ∧
    (s.dec.asm.length ≠ 5 ∨ detect s.cfg.desyncDetect (detectContext s) .implausible = false →
      ∃ why, exec .decSlip s = .fault (.noStep why))

/-- R155, R161: the oldest queued code, scaled linearly, is pushed into the owner's buffer; with an empty queue there is no step. -/
def Obligations.PushScalesIntoOwnerBuffer : Prop :=
  ∀ (s : State),
    (∀ c rest, s.dec.queue = c :: rest →
      exec .decPush s = .next { s with
        dec := { s.dec with queue := rest }
        ch := { s.ch with phys := s.ch.phys.set s.cfg.owner (rbPush s.ch.phys[s.cfg.owner]
          (s.cfg.gainLsb * (c.toNat : Rat) + s.cfg.gainOffset) s.cfg.sampleBufferDepth) } }) ∧
    (s.dec.queue = [] → exec .decPush s = .fault (.noStep .queueEmpty))

/-- R156, R161: a fed sample, scaled linearly, is pushed into the physical buffer that is not the owner's, whatever the state; the
owner's buffer is untouched. -/
def Obligations.FeedFillsTheOtherChannel : Prop :=
  ∀ (s : State) (v : Code), ∃ (p : Fin 2) (t : State), p ≠ s.cfg.owner ∧
    exec (.envFeed v) s = .next t ∧
    t = { s with ch := { s.ch with phys := s.ch.phys.set p (rbPush s.ch.phys[p]
      (s.cfg.gainLsb * (v.toNat : Rat) + s.cfg.gainOffset) s.cfg.sampleBufferDepth) } } ∧
    t.ch.phys[s.cfg.owner] = s.ch.phys[s.cfg.owner]

/-- R157: NEVER judges every window plausible only, ANY admits both verdicts, and every detector admits at least one. -/
def Obligations.DetectorInstances : Prop :=
  ∀ (ctx : DetectContext),
    (detect .never ctx .plausible = true ∧ detect .never ctx .implausible = false) ∧
    (detect .any ctx .plausible = true ∧ detect .any ctx .implausible = true) ∧
    ∀ det, detect det ctx .plausible = true ∨ detect det ctx .implausible = true

/-- R164: the reader never waits for its consumers: a byte is taken exactly when link, wire and window allow it, whatever the queue and
the buffers hold, and a full window can always be unpacked or slipped; the buffer update waits for a queued code only. -/
def Obligations.ReaderNeverWaitsForConsumers : Prop :=
  ∀ (s : State),
    ((∃ t, exec .decIngest s = .next t) ↔ s.linkUp = true ∧ s.wire ≠ [] ∧ s.dec.asm.length < 5) ∧
    (s.dec.asm.length = 5 → (∃ t, exec .decUnpack s = .next t) ∨ (∃ t, exec .decSlip s = .next t)) ∧
    ((∃ t, exec .decPush s = .next t) ↔ s.dec.queue ≠ [])

/-- R67, R285: of all operations only LNK.DROP, DEC.SLIP, LNK.DOWN and RST.HOST move the alignment measure, how far window and wire
together are from a packet boundary; LNK.DROP and DEC.SLIP move it by one byte. How far the other two move it is not said here. The
measure is the model's reading of alignment (log entry 12). -/
def Obligations.OnlyFourOperationsMoveTheAlignmentMeasure : Prop :=
  ∀ (i : Instr) (s t : State), exec i s = .next t →
    (i ≠ .lnkDrop → i ≠ .decSlip → i ≠ .lnkDown → i ≠ .rstHost → t.misalignment = s.misalignment) ∧
    (i = .lnkDrop ∨ i = .decSlip → (t.misalignment + 1) % 5 = s.misalignment)

/-- R163: in a state that meets the invariant, with the link up and the alignment measure 0, a conversion appends its scaled code to the
samples in flight, and an emission and an ingestion move them on without loss, change or reordering; so does an unpack where the
queue has room for four codes, and a push where the owner's buffer has room for one sample. That measure 0 stands for an aligned stream
is the model's reading (log entry 12). -/
def Obligations.PipelineStepKeepsSamples : Prop :=
  ∀ (s t : State), s.Inv → s.linkUp = true → s.misalignment = 0 →
    (∀ v, exec (.smpConvert v) s = .next t → t.inFlight = s.inFlight ++ [scale s.cfg v]) ∧
    (exec .smpEmit s = .next t → t.inFlight = s.inFlight) ∧
    (exec .decIngest s = .next t → t.inFlight = s.inFlight) ∧
    (s.dec.queue.length + 4 ≤ s.cfg.hostQueueDepth → exec .decUnpack s = .next t → t.inFlight = s.inFlight) ∧
    (s.ch.phys[s.cfg.owner].length < s.cfg.sampleBufferDepth → exec .decPush s = .next t →
      t.inFlight = s.inFlight)

/-- R163, under the aligned start of R284: in a run from an empty window and queue in which no byte is dropped or slipped, the link
stays, neither side restarts and neither queue nor buffer overflows, the samples in flight at the end are those at the start
followed by the scaled codes of the run's conversions in order; so once everything emitted has been ingested, unpacked and
pushed, the owner's buffer holds exactly them.
That an aligned start is measured by `alignedStart` is the model's reading of R284 (log entry 12). -/
def Obligations.EndToEndDelivery : Prop :=
  ∀ (ops : List Instr) (s t : State), s.Inv → s.linkUp = true →
    s.dec.asm = [] → s.dec.queue = [] → s.alignedStart = true →
    (∀ i ∈ ops, i ≠ .lnkDrop ∧ i ≠ .lnkDown ∧ i ≠ .rstFw ∧ i ≠ .rstHost ∧ i ≠ .decSlip) →
    (∀ n u, runOps (ops.take n) s = some u →
      (ops[n]? = some .decUnpack → u.dec.queue.length + 4 ≤ s.cfg.hostQueueDepth) ∧
      (ops[n]? = some .decPush → u.ch.phys[s.cfg.owner].length < s.cfg.sampleBufferDepth)) →
    runOps ops s = some t →
    let converted := ops.filterMap fun i => match i with
      | .smpConvert v => some v
      | _ => none
    t.inFlight = s.inFlight ++ converted.map (scale s.cfg) ∧
    (t.fw.k = 0 → t.wire = [] → t.dec.asm = [] → t.dec.queue = [] →
      t.ch.phys[s.cfg.owner] = s.inFlight ++ converted.map (scale s.cfg))

/-! ### Math unit -/

/-- R201: ADD gives the exact sum in every state and writes nothing else; with raw codes the sum is at most 2046. That it runs as an
instruction on the lane's pair is the model's choice (log entry 7). -/
def Obligations.AddGivesExactSum : Prop :=
  (∀ s : State, exec .add s = .next { s with lane := { s.lane with result := .fin (s.lane.a + s.lane.b) } }) ∧
  (∀ c0 c1 : Code, ∃ n : Nat, n ≤ 2046 ∧ opAdd (c0.toNat : Rat) (c1.toNat : Rat) = .fin (n : Rat))

/-- R202, R203: the two subtractions give the exact difference in their order and write nothing else; with raw codes it is between
-1023 and 1023, and each is the other with the operands exchanged. Log entry 7 as for ADD. -/
def Obligations.SubtractGivesExactDifference : Prop :=
  (∀ s : State,
    exec .subAB s = .next { s with lane := { s.lane with result := .fin (s.lane.a - s.lane.b) } } ∧
    exec .subBA s = .next { s with lane := { s.lane with result := .fin (s.lane.b - s.lane.a) } }) ∧
  (∀ x y : Rat, opSubBA x y = opSubAB y x) ∧
  (∀ c0 c1 : Code, ∃ n : Int, -1023 ≤ n ∧ n ≤ 1023 ∧ opSubAB (c0.toNat : Rat) (c1.toNat : Rat) = .fin (n : Rat))

/-- R204: MUL gives the exact product in every state and writes nothing else; with raw codes it is at most 1023 squared. Log entry
7 as for ADD. -/
def Obligations.MultiplyGivesExactProduct : Prop :=
  (∀ s : State, exec .mul s = .next { s with lane := { s.lane with result := .fin (s.lane.a * s.lane.b) } }) ∧
  (∀ c0 c1 : Code, ∃ n : Nat, n ≤ 1046529 ∧ opMul (c0.toNat : Rat) (c1.toNat : Rat) = .fin (n : Rat))

/-- R205, R206, R207: the two divisions complete on every pair with the edge rules, the sign of an infinity following the numerator
alone, and write nothing else. Log entry 7 as for ADD. -/
def Obligations.DivisionIsTotal : Prop :=
  (∀ s : State,
    exec .divAB s = .next { s with lane := { s.lane with result := divide s.lane.a s.lane.b } } ∧
    exec .divBA s = .next { s with lane := { s.lane with result := divide s.lane.b s.lane.a } }) ∧
  (∀ n d : Rat,
    (d = 0 → n = 0 → divide n d = .fin 1) ∧
    (d = 0 → 0 < n → divide n d = .posInf) ∧
    (d = 0 → n < 0 → divide n d = .negInf) ∧
    (d ≠ 0 → divide n d = .fin (n / d))) ∧
  divide 5 0 = .posInf ∧ divide (-5) 0 = .negInf ∧ divide 6 3 = .fin 2 ∧ divide 1 3 = .fin (1 / 3)

/-- R208: running the operator an operator word decodes to gives what a descriptor that holds the word computes. -/
def Obligations.OperatorWordsRunAsTheyCompute : Prop :=
  ∀ (s : State) (c : Ctl) (a b : Rat) (more : List Slot),
    step { s with sched := .operator c a b :: more } =
      .next { s with sched := more, reply := none, lane := ⟨a, b, applyCtl c a b⟩ }

/-- R211, R36: a creation over two physical channels, one channel twice included, with fewer than three derived channels live, gives
the next id to a new empty channel and changes nothing else. -/
def Obligations.CreateGivesNextId : Prop :=
  ∀ (s : State) (ctl : Ctl) (a b : Nat), a < 2 → b < 2 → s.ch.derived.length < 3 →
    ∃ t, exec (.mthCreate ctl a b) s = .next t ∧
      t.reply = some (.ok (some s.ch.nextId)) ∧
      t.desc s.ch.nextId = some ⟨ctl, a, b, 1, [], none⟩ ∧
      (∀ id, id ≠ s.ch.nextId → t.desc id = s.desc id) ∧
      t.ch.nextId = s.ch.nextId + 1 ∧ t.ch.phys = s.ch.phys ∧
      t.fw = s.fw ∧ t.wire = s.wire ∧ t.linkUp = s.linkUp ∧ t.dec = s.dec ∧ t.cfg = s.cfg ∧
      t.sched = s.sched ∧ t.lane = s.lane

/-- R211, R213, R256: the three rejections in their order, each with nothing but the reply written: an id that names no channel, then an
operand that is a derived channel, then three channels already live. -/
def Obligations.CreateRejectionsInOrder : Prop :=
  ∀ (s : State) (ctl : Ctl) (a b : Nat), s.Inv →
    (s.chanExists a = false ∨ s.chanExists b = false →
      exec (.mthCreate ctl a b) s = .next { s with reply := some .invalidChannel }) ∧
    (s.chanExists a = true → s.chanExists b = true → 2 ≤ a ∨ 2 ≤ b →
      exec (.mthCreate ctl a b) s = .next { s with reply := some .nestingTooDeep }) ∧
    (a < 2 → b < 2 → s.ch.derived.length = 3 →
      exec (.mthCreate ctl a b) s = .next { s with reply := some .channelLimitReached })

/-- R212: a live channel with no recompute in flight is removed, its buffer with it; an id that is not live, a physical one included,
replies InvalidChannel; a channel whose recompute is in flight holds. -/
def Obligations.DeleteRemovesOnlyThatChannel : Prop :=
  ∀ (s : State) (id : Nat),
    (∀ d, s.desc id = some d → d.work = none →
      ∃ t, exec (.mthDelete id) s = .next t ∧ t.reply = some (.ok none) ∧
        t.desc id = none ∧ (∀ id', id' ≠ id → t.desc id' = s.desc id') ∧
        t.ch.nextId = s.ch.nextId ∧ t.ch.phys = s.ch.phys ∧
        t.fw = s.fw ∧ t.wire = s.wire ∧ t.linkUp = s.linkUp ∧ t.dec = s.dec ∧ t.cfg = s.cfg ∧
        t.sched = s.sched ∧ t.lane = s.lane) ∧
    (s.desc id = none → exec (.mthDelete id) s = .next { s with reply := some .invalidChannel }) ∧
    (s.Inv → id < 2 → exec (.mthDelete id) s = .next { s with reply := some .invalidChannel }) ∧
    (∀ d w, s.desc id = some d → d.work = some w → exec (.mthDelete id) s = .fault (.noStep .recomputeInFlight))

/-- R214, R219: an atomic recompute of a live channel gives the whole buffer, as long as the overlap, each element from the two operand
elements of the same index alone, and changes nothing else; otherwise there is no step. -/
def Obligations.RecomputeIsPointwise : Prop :=
  ∀ (s : State) (id : Nat),
    (∀ d bufA bufB, s.cfg.recomputeAtomic = true → s.desc id = some d →
      s.physBuf d.a = some bufA → s.physBuf d.b = some bufB →
      ∃ (t : State) (out : List XVal), exec (.mthRecompute id) s = .next t ∧
        t = { s with ch := { s.ch with derived := t.ch.derived } } ∧
        t.desc id = some { d with buf := out } ∧ (∀ id', id' ≠ id → t.desc id' = s.desc id') ∧
        out.length = min bufA.length bufB.length ∧
        ∀ (i : Nat) (x y : Rat), bufA[i]? = some x → bufB[i]? = some y → out[i]? = some (applyCtl d.ctl x y)) ∧
    (s.cfg.recomputeAtomic = false ∨ s.desc id = none → ∃ why, exec (.mthRecompute id) s = .fault (.noStep why))

/-- R218: an operand paired with itself gives the rule's result under every operator word, division included at 0, and so does every
element of a recompute with one channel as both operands. -/
def Obligations.SameChannelResults : Prop :=
  (∀ (c : Ctl) (x : Rat), applyCtl c x x = sameOperandResult (decodeCtl c) x) ∧
  ∀ (s : State) (id : Nat) (d : Descriptor) (xs : List Rat), s.cfg.recomputeAtomic = true →
    s.desc id = some d → d.a = d.b → s.physBuf d.a = some xs →
    ∃ t e, exec (.mthRecompute id) s = .next t ∧ t.desc id = some e ∧ e.buf.length = xs.length ∧
      ∀ (i : Nat) (x : Rat), xs[i]? = some x → e.buf[i]? = some (sameOperandResult (decodeCtl d.ctl) x)

/-- R216: a live channel with no recompute in flight starts one, nothing else changed, under the non-atomic parameter only. -/
def Obligations.BeginStartsRecompute : Prop :=
  ∀ (s : State) (id : Nat),
    (∀ d, s.cfg.recomputeAtomic = false → s.desc id = some d → d.work = none →
      ∃ t, exec (.mthBegin id) s = .next t ∧
        t = { s with ch := { s.ch with derived := t.ch.derived } } ∧
        t.desc id = some { d with work := some (0, []) } ∧ ∀ id', id' ≠ id → t.desc id' = s.desc id') ∧
    (s.cfg.recomputeAtomic = true ∨ s.desc id = none ∨ (∃ d w, s.desc id = some d ∧ d.work = some w) →
      ∃ why, exec (.mthBegin id) s = .fault (.noStep why)) ∧
    decodeLabel ⟨0x34, [id]⟩ = .ok (.mthBegin id)

/-- R217: an element step below the current overlap appends the element of index `i` and advances; at or past it the accumulated
list becomes the buffer and the recompute ends; nothing else changes. It holds under the atomic parameter, for an id that is
not live and with no recompute in flight. -/
def Obligations.ElementStepComputesOrFinishes : Prop :=
  ∀ (s : State) (id : Nat),
    (∀ (i : Nat) (d : Descriptor) (acc : List XVal) (bufA bufB : List Rat),
      s.cfg.recomputeAtomic = false → s.desc id = some d → d.work = some (i, acc) →
      s.physBuf d.a = some bufA → s.physBuf d.b = some bufB →
      ∃ t, exec (.mthElem id) s = .next t ∧
        t = { s with ch := { s.ch with derived := t.ch.derived } } ∧
        (∀ id', id' ≠ id → t.desc id' = s.desc id') ∧
        (∀ x y, bufA[i]? = some x → bufB[i]? = some y →
          t.desc id = some { d with work := some (i + 1, acc ++ [applyCtl d.ctl x y]) }) ∧
        (min bufA.length bufB.length ≤ i → t.desc id = some { d with buf := acc, work := none })) ∧
    (s.cfg.recomputeAtomic = true → exec (.mthElem id) s = .fault (.noStep .recomputeIsAtomic)) ∧
    (s.cfg.recomputeAtomic = false → s.desc id = none → exec (.mthElem id) s = .fault (.noStep .channelNotLive)) ∧
    (∀ d, s.cfg.recomputeAtomic = false → s.desc id = some d → d.work = none →
      exec (.mthElem id) s = .fault (.noStep .noRecomputeInFlight))

/-- R101, R214, R217: a non-atomic recompute with nothing in between gives the buffer an atomic one gives. -/
def Obligations.UninterruptedElementsEqualAtomic : Prop :=
  ∀ (s : State) (id : Nat) (d : Descriptor) (bufA bufB : List Rat),
    s.cfg.recomputeAtomic = false → s.desc id = some d → d.work = none →
    s.physBuf d.a = some bufA → s.physBuf d.b = some bufB →
    ∃ t, runOps (expand s (.run id)) s = some t ∧
      t.desc id = some { d with buf := pointwise d.ctl bufA bufB } ∧
      (∀ id', id' ≠ id → t.desc id' = s.desc id') ∧
      t = { s with ch := { s.ch with derived := t.ch.derived } }

/-- R217: whatever is pushed in between, a recompute that stays in flight takes at most `SAMPLE_BUFFER_DEPTH` element steps, so one
more ends it. -/
def Obligations.ElementStepsAreBounded : Prop :=
  ∀ (ops : List Instr) (s : State) (id : Nat), s.Inv →
    (∀ n ≤ ops.length, ∃ u d w, runOps (ops.take n) s = some u ∧ u.desc id = some d ∧ d.work = some w) →
    ops.count (.mthElem id) ≤ s.cfg.sampleBufferDepth

/-! ### Statuses and outcomes -/

/-- R252, R251: an operation that replies a status other than OK leaves every other field as it was; only a creation or a deletion
replies a status, only a link loss reports LinkLost, and no operation surfaces StreamDesync; the words have the rule's codes. -/
def Obligations.RejectionLeavesStateUnchanged : Prop :=
  ((∀ id, (Status.ok id).code = 0) ∧ Status.nestingTooDeep.code = 1 ∧ Status.channelLimitReached.code = 2 ∧
    Status.streamDesync.code = 3 ∧ Status.linkLost.code = 4 ∧ Status.invalidChannel.code = 5) ∧
  ∀ (i : Instr) (s t : State) (st : Status), s.reply = none → exec i s = .next t → t.reply = some st →
    (st.isRejection = true → t = { s with reply := some st }) ∧
    (st.kind = .status → (∃ ctl a b, i = .mthCreate ctl a b) ∨ ∃ id, i = .mthDelete id) ∧
    (st = .linkLost → i = .lnkDown) ∧ st ≠ .streamDesync

/-- R261, R250, R253: in every state that meets the invariant every operation either gives a next state or has no step because its
guard fails; none faults otherwise and none refuses. -/
def Obligations.NoOperationFaults : Prop :=
  ∀ (i : Instr) (s : State), s.Inv →
    (∃ t, exec i s = .next t) ∨ ∃ why, exec i s = .fault (.noStep why)

/-- R261, R97: a step is refused exactly when the label at the front of the schedule is refused, by that label's reason, whatever comes
after it and whatever the rest of the state holds; a run that comes to such a state is refused from there on. The schedule is the
model's own (log entry 4). -/
def Obligations.StepRefusesExactlyRefusedEntries : Prop :=
  (∀ (s : State) (r : Reject), step s = .refused (.rejected r) ↔ frontRefused s.sched r) ∧
  (∀ (s : State) (x : Refusal), step s = .refused x → ∃ r, x = .rejected r) ∧
  ∀ (k n : Nat) (s t : State) (r : Reject), Host.Core.run core k s = .next t → frontRefused t.sched r → k < n →
    Host.Core.run core n s = .refused (.rejected r)

/-! ### Reset -/

/-- R280: the power-on value of every field of the spec's state; beside them OWNER 0 and RECOMPUTE_ATOMIC true as decided in R10 and
CLKDIV 32 as in R9, in the launch configuration that is the model's choice (log entry 2); and that this state is quiescent (R263) and
an aligned start (R284, as the model measures it: log entry 12). -/
def Obligations.PowerOnState : Prop :=
  State.reset.fw.k = 0 ∧ State.reset.fw.acc = #v[none, none, none, none] ∧
  State.reset.wire = [] ∧ State.reset.linkUp = true ∧
  State.reset.dec.asm = [] ∧ State.reset.dec.desyncCount = 0 ∧ State.reset.dec.queue = [] ∧
  State.reset.ch.phys[0] = [] ∧ State.reset.ch.phys[1] = [] ∧
  State.reset.ch.derived = [] ∧ State.reset.ch.nextId = 2 ∧
  State.reset.cfg.owner = 0 ∧ State.reset.cfg.recomputeAtomic = true ∧ State.reset.cfg.clkDiv.divisor = 32 ∧
  State.reset.quiescent = true ∧ State.reset.alignedStart = true

/-- R281: a firmware restart completes in every state, empties the group and changes nothing else. -/
def Obligations.FirmwareRestart : Prop :=
  (∀ s : State, exec .rstFw s = .next { s with fw := ⟨0, #v[none, none, none, none]⟩ }) ∧
  decodeLabel ⟨0x51, []⟩ = .ok .rstFw

/-- R282: a host restart completes in every state, gives the host's fields their reset values and keeps the wire, the link and the
firmware. -/
def Obligations.HostRestart : Prop :=
  (∀ s : State, exec .rstHost s = .next { s with
    dec := { asm := [], desyncCount := 0, queue := [] }
    ch := { phys := #v[[], []], derived := [], nextId := 2 } }) ∧
  decodeLabel ⟨0x52, []⟩ = .ok .rstHost

/-! ### The whole machine -/

/-- The invariant holds at power-on. -/
def Obligations.PowerOnMeetsInvariant : Prop := State.reset.Inv

/-- R21 to R36, R61, R220: every step keeps the invariant: the bounds of every sequence, the shape of the firmware's group, at most three
live channels of level 1 over physical operands in a canonical map, ids below the next id, and an empty wire without link. -/
def Obligations.StepKeepsInvariant : Prop :=
  ∀ s t : State, s.Inv → step s = .next t → t.Inv

/-- R39: an operation that the access table gives no write of the firmware's state, the wire, the link, the window, the slip counter, the
queue, a physical buffer or the next id leaves it as it was. A live channel's descriptor is framed as a whole: an operation that
writes none of its fields, and one that names another channel, leaves all of it as it was; which of its fields a recompute, its start
and its element steps write is not said here (RecomputeIsPointwise, BeginStartsRecompute, ElementStepComputesOrFinishes say it). No
operation writes the configuration (R280; log entry 1) or the schedule (log entry 4), and none but an operator the lane (log entry 7). -/
def Obligations.AccessTableFrames : Prop :=
  ∀ (i : Instr) (s t : State), exec i s = .next t →
    ((∀ v, i ≠ .smpConvert v) → i ≠ .smpEmit → i ≠ .rstFw → t.fw = s.fw) ∧
    (i ≠ .smpEmit → i ≠ .lnkDrop → i ≠ .lnkDown → i ≠ .decIngest → t.wire = s.wire) ∧
    (i ≠ .lnkDown → i ≠ .lnkUp → t.linkUp = s.linkUp) ∧
    (i ≠ .decIngest → i ≠ .decUnpack → i ≠ .decSlip → i ≠ .rstHost → t.dec.asm = s.dec.asm) ∧
    (i ≠ .decSlip → i ≠ .rstHost → t.dec.desyncCount = s.dec.desyncCount) ∧
    (i ≠ .decUnpack → i ≠ .decPush → i ≠ .rstHost → t.dec.queue = s.dec.queue) ∧
    (i ≠ .decPush → i ≠ .rstHost → t.ch.phys[s.cfg.owner] = s.ch.phys[s.cfg.owner]) ∧
    ((∀ v, i ≠ .envFeed v) → i ≠ .rstHost → ∀ p : Fin 2, p ≠ s.cfg.owner → t.ch.phys[p] = s.ch.phys[p]) ∧
    (∀ id, (∀ ctl a b, i = .mthCreate ctl a b → id ≠ s.ch.nextId) → i ≠ .mthDelete id → i ≠ .mthRecompute id →
      i ≠ .mthBegin id → i ≠ .mthElem id → i ≠ .rstHost → t.desc id = s.desc id) ∧
    ((∀ ctl a b, i ≠ .mthCreate ctl a b) → i ≠ .rstHost → t.ch.nextId = s.ch.nextId) ∧
    t.sched = s.sched ∧ t.cfg = s.cfg ∧ ((toCtl i).isNone → t.lane = s.lane)

/-- R28: the slip counter is the number of slips since the host's start: a slip adds one, a host restart clears it, and no other operation
writes it. -/
def Obligations.DesyncCounterCountsSlips : Prop :=
  ∀ (i : Instr) (s t : State), exec i s = .next t →
    t.dec.desyncCount =
      (if i = .decSlip then s.dec.desyncCount + 1 else if i = .rstHost then 0 else s.dec.desyncCount)

/-- R24, R80: nothing of the host or the link reaches the firmware: from two states with the same firmware state an operation that has a
step in both leaves the same firmware state. -/
def Obligations.FirmwareIsIsolated : Prop :=
  ∀ (i : Instr) (s s' t t' : State), s.fw = s'.fw → exec i s = .next t → exec i s' = .next t' → t.fw = t'.fw

/-- R30, R36: an id is never given out twice while the host runs: the next id never falls, a channel that becomes live takes it, and it
then rises past that channel. -/
def Obligations.ChannelIdsAreNeverReused : Prop :=
  ∀ (i : Instr) (s t : State), i ≠ .rstHost → exec i s = .next t →
    s.ch.nextId ≤ t.ch.nextId ∧
    ∀ id, s.desc id = none → (t.desc id).isSome → id = s.ch.nextId ∧ t.ch.nextId = id + 1

/-- R33: the operator, the operands and the level of a channel that stays live never change. -/
def Obligations.LiveDescriptorsKeepTheirOperands : Prop :=
  ∀ (i : Instr) (s t : State) (id : Nat) (d e : Descriptor), s.Inv → exec i s = .next t →
    s.desc id = some d → t.desc id = some e →
    e.ctl = d.ctl ∧ e.a = d.a ∧ e.b = d.b ∧ e.level = d.level

/-- R16, R98, R261: a step runs the instruction at the front of the schedule, on the state with its entry taken off and the last reply
gone, an operator's operand pair having been latched. A byte form is read from the bytes up to the first entry that is no byte, and
the bytes it leaves stand before whatever entries come after. A refused entry refuses, whatever comes after it, and an empty schedule
has no step. The schedule is the model's own (log entry 4). -/
def Obligations.StepRunsScheduledInstruction : Prop :=
  ∀ (s : State) (more : List Slot),
    (∀ bs i rest, s.sched = bs.map .byte ++ more → (∀ c, more.head? ≠ some (.byte c)) → decode bs = .ok (i, rest) →
      step s = exec i { s with sched := rest.map .byte ++ more, reply := none }) ∧
    (∀ l i, s.sched = .label l :: more → decodeLabel l = .ok i →
      step s = exec i { s with sched := more, reply := none }) ∧
    (∀ l r, s.sched = .label l :: more → decodeLabel l = .error r → step s = .refused (.rejected r)) ∧
    (∀ b bs r, s.sched = (b :: bs).map .byte ++ more → (∀ c, more.head? ≠ some (.byte c)) →
      decode (b :: bs) = .error r → step s = .refused (.rejected r)) ∧
    (∀ c a b, s.sched = .operator c a b :: more →
      step s = exec (decodeCtl c) { s with sched := more, reply := none, lane := { s.lane with a := a, b := b } }) ∧
    (s.sched = [] → step s = .fault (.noStep .scheduleEmpty))
end

