-- ==== Sys2Proof/Laws/Decode.lean ====
section
/-!
SUPPORT. What the decoder does at the front of a schedule: which bytes it takes, which it leaves, and when it refuses.
-/

namespace Sys2Proof.Machine

/-- The bytes before the first entry that is no byte are the leading bytes. -/
theorem leadBytes_append (bs : List Byte) {more : List Slot} (h : ∀ c, more.head? ≠ some (.byte c)) :
    leadBytes (bs.map .byte ++ more) = bs := by
  induction bs with
  | nil =>
    cases more with
    | nil => rfl
    | cons e es => cases e with
      | byte b => exact absurd rfl (h b)
      | label _ => rfl
      | operator _ _ _ => rfl
  | cons b bs ih => simp [leadBytes, ih]

theorem readArg_suffix {k : ArgKind} {bs rest : List Byte} {v : Nat} (h : readArg k bs = some (v, rest)) :
    ∃ front, bs = front ++ rest := by
  unfold readArg at h
  split at h <;> simp at h
  · obtain ⟨_, rfl⟩ := h; exact ⟨[_, _], rfl⟩
  · obtain ⟨_, rfl⟩ := h; exact ⟨[_], rfl⟩
  · obtain ⟨_, rfl⟩ := h; exact ⟨[_], rfl⟩

theorem readArgs_suffix : ∀ {ks : List ArgKind} {bs rest : List Byte} {vs : List Nat},
    readArgs ks bs = some (vs, rest) → ∃ front, bs = front ++ rest
  | [], bs, rest, vs, h => by simp [readArgs] at h; exact ⟨[], by simp [h.2]⟩
  | k :: ks, bs, rest, vs, h => by
    unfold readArgs at h
    split at h
    · cases h
    · next v r hr =>
      split at h
      · cases h
      · next vs' r' hr' =>
        simp at h
        obtain ⟨f, rfl⟩ := readArg_suffix hr
        obtain ⟨g, rfl⟩ := readArgs_suffix hr'
        exact ⟨f ++ g, by simp [h.2]⟩

/-- A byte form takes its opcode and leaves the end of the bytes after it. -/
theorem decode_suffix {b : Byte} {bs rest : List Byte} {i : Instr} (h : decode (b :: bs) = .ok (i, rest)) :
    ∃ front, bs = front ++ rest := by
  unfold decode at h
  split at h
  · cases h
  · next l r hl =>
    split at h
    · cases h
    · simp at h
      obtain ⟨_, rfl⟩ := h
      unfold readLabel at hl
      split at hl
      · next e => cases e
      · next e =>
        cases e
        split at hl
        · cases hl
        · split at hl
          · cases hl
          · next hr => cases hl; exact readArgs_suffix hr

/-- A byte form at the front is taken, and the bytes it leaves stand before the other entries. -/
theorem decodeSlots_bytes_ok {b : Byte} {bs rest : List Byte} {i : Instr} {more : List Slot}
    (h : ∀ c, more.head? ≠ some (.byte c)) (hd : decode (b :: bs) = .ok (i, rest)) :
    decodeSlots ((b :: bs).map .byte ++ more) = some (.ok (i, rest.map .byte ++ more)) := by
  obtain ⟨f, rfl⟩ := decode_suffix hd
  simp only [List.map_cons, List.cons_append, decodeSlots, leadBytes_append _ h, hd]
  simp

/-- A refused byte form at the front is refused, whatever entries come after. -/
theorem decodeSlots_bytes_error {b : Byte} {bs : List Byte} {r : Reject} {more : List Slot}
    (h : ∀ c, more.head? ≠ some (.byte c)) (hd : decode (b :: bs) = .error r) :
    decodeSlots ((b :: bs).map .byte ++ more) = some (.error r) := by
  simp only [List.map_cons, List.cons_append, decodeSlots, leadBytes_append _ h, hd]

/-- Every schedule is its leading bytes and entries of which the first is no byte. -/
theorem schedule_split : ∀ es : List Slot,
    ∃ more, es = (leadBytes es).map .byte ++ more ∧ ∀ c, more.head? ≠ some (.byte c)
  | [] => ⟨[], rfl, by simp⟩
  | .byte b :: es => by obtain ⟨m, h1, h2⟩ := schedule_split es; exact ⟨m, by simp [leadBytes, ← h1], h2⟩
  | .label l :: es => ⟨_, rfl, by simp⟩
  | .operator _ _ _ :: es => ⟨_, rfl, by simp⟩

/-- A schedule is refused exactly when the label at its front is. -/
theorem decodeSlots_error_iff (es : List Slot) (r : Reject) :
    decodeSlots es = some (.error r) ↔ frontRefused es r := by
  constructor
  · intro h
    unfold decodeSlots at h
    split at h
    · cases h
    · cases h
    · split at h
      · next hd => cases h; exact .inl ⟨_, _, rfl, hd⟩
      · cases h
    · next b rest =>
      split at h
      · next hd =>
        cases h
        obtain ⟨m, h1, h2⟩ := schedule_split rest
        exact .inr ⟨b, leadBytes rest, m, by simpa using h1, h2, hd⟩
      · cases h
  · rintro (⟨l, m, rfl, hd⟩ | ⟨b, bs, m, rfl, hm, hd⟩)
    · simp [decodeSlots, hd]
    · exact decodeSlots_bytes_error hm hd

end Sys2Proof.Machine
end

