-- ==== Sys2Proof/Laws/State.lean ====
section
/-!
SUPPORT. What each state update leaves in each field, one lemma per field per update.
-/

namespace Sys2Proof.Machine

variable (s : State)

@[simp] theorem State.setFw_fw (x : Firmware) : (s.setFw x).fw = x := rfl
@[simp] theorem State.setFw_wire (x : Firmware) : (s.setFw x).wire = s.wire := rfl
@[simp] theorem State.setFw_linkUp (x : Firmware) : (s.setFw x).linkUp = s.linkUp := rfl
@[simp] theorem State.setFw_dec (x : Firmware) : (s.setFw x).dec = s.dec := rfl
@[simp] theorem State.setFw_ch (x : Firmware) : (s.setFw x).ch = s.ch := rfl
@[simp] theorem State.setFw_cfg (x : Firmware) : (s.setFw x).cfg = s.cfg := rfl
@[simp] theorem State.setFw_sched (x : Firmware) : (s.setFw x).sched = s.sched := rfl
@[simp] theorem State.setFw_reply (x : Firmware) : (s.setFw x).reply = s.reply := rfl
@[simp] theorem State.setFw_lane (x : Firmware) : (s.setFw x).lane = s.lane := rfl

@[simp] theorem State.setWire_fw (x : List Byte) : (s.setWire x).fw = s.fw := rfl
@[simp] theorem State.setWire_wire (x : List Byte) : (s.setWire x).wire = x := rfl
@[simp] theorem State.setWire_linkUp (x : List Byte) : (s.setWire x).linkUp = s.linkUp := rfl
@[simp] theorem State.setWire_dec (x : List Byte) : (s.setWire x).dec = s.dec := rfl
@[simp] theorem State.setWire_ch (x : List Byte) : (s.setWire x).ch = s.ch := rfl
@[simp] theorem State.setWire_cfg (x : List Byte) : (s.setWire x).cfg = s.cfg := rfl
@[simp] theorem State.setWire_sched (x : List Byte) : (s.setWire x).sched = s.sched := rfl
@[simp] theorem State.setWire_reply (x : List Byte) : (s.setWire x).reply = s.reply := rfl
@[simp] theorem State.setWire_lane (x : List Byte) : (s.setWire x).lane = s.lane := rfl

@[simp] theorem State.setLink_fw (x : Bool) : (s.setLink x).fw = s.fw := rfl
@[simp] theorem State.setLink_wire (x : Bool) : (s.setLink x).wire = s.wire := rfl
@[simp] theorem State.setLink_linkUp (x : Bool) : (s.setLink x).linkUp = x := rfl
@[simp] theorem State.setLink_dec (x : Bool) : (s.setLink x).dec = s.dec := rfl
@[simp] theorem State.setLink_ch (x : Bool) : (s.setLink x).ch = s.ch := rfl
@[simp] theorem State.setLink_cfg (x : Bool) : (s.setLink x).cfg = s.cfg := rfl
@[simp] theorem State.setLink_sched (x : Bool) : (s.setLink x).sched = s.sched := rfl
@[simp] theorem State.setLink_reply (x : Bool) : (s.setLink x).reply = s.reply := rfl
@[simp] theorem State.setLink_lane (x : Bool) : (s.setLink x).lane = s.lane := rfl

@[simp] theorem State.setAsm_fw (x : List Byte) : (s.setAsm x).fw = s.fw := rfl
@[simp] theorem State.setAsm_wire (x : List Byte) : (s.setAsm x).wire = s.wire := rfl
@[simp] theorem State.setAsm_linkUp (x : List Byte) : (s.setAsm x).linkUp = s.linkUp := rfl
@[simp] theorem State.setAsm_dec (x : List Byte) : (s.setAsm x).dec = { s.dec with asm := x } := rfl
@[simp] theorem State.setAsm_ch (x : List Byte) : (s.setAsm x).ch = s.ch := rfl
@[simp] theorem State.setAsm_cfg (x : List Byte) : (s.setAsm x).cfg = s.cfg := rfl
@[simp] theorem State.setAsm_sched (x : List Byte) : (s.setAsm x).sched = s.sched := rfl
@[simp] theorem State.setAsm_reply (x : List Byte) : (s.setAsm x).reply = s.reply := rfl
@[simp] theorem State.setAsm_lane (x : List Byte) : (s.setAsm x).lane = s.lane := rfl

@[simp] theorem State.setQueue_fw (x : List Code) : (s.setQueue x).fw = s.fw := rfl
@[simp] theorem State.setQueue_wire (x : List Code) : (s.setQueue x).wire = s.wire := rfl
@[simp] theorem State.setQueue_linkUp (x : List Code) : (s.setQueue x).linkUp = s.linkUp := rfl
@[simp] theorem State.setQueue_dec (x : List Code) : (s.setQueue x).dec = { s.dec with queue := x } := rfl
@[simp] theorem State.setQueue_ch (x : List Code) : (s.setQueue x).ch = s.ch := rfl
@[simp] theorem State.setQueue_cfg (x : List Code) : (s.setQueue x).cfg = s.cfg := rfl
@[simp] theorem State.setQueue_sched (x : List Code) : (s.setQueue x).sched = s.sched := rfl
@[simp] theorem State.setQueue_reply (x : List Code) : (s.setQueue x).reply = s.reply := rfl
@[simp] theorem State.setQueue_lane (x : List Code) : (s.setQueue x).lane = s.lane := rfl

@[simp] theorem State.countDesync_fw : (s.countDesync).fw = s.fw := rfl
@[simp] theorem State.countDesync_wire : (s.countDesync).wire = s.wire := rfl
@[simp] theorem State.countDesync_linkUp : (s.countDesync).linkUp = s.linkUp := rfl
@[simp] theorem State.countDesync_dec : (s.countDesync).dec = { s.dec with desyncCount := s.dec.desyncCount + 1 } := rfl
@[simp] theorem State.countDesync_ch : (s.countDesync).ch = s.ch := rfl
@[simp] theorem State.countDesync_cfg : (s.countDesync).cfg = s.cfg := rfl
@[simp] theorem State.countDesync_sched : (s.countDesync).sched = s.sched := rfl
@[simp] theorem State.countDesync_reply : (s.countDesync).reply = s.reply := rfl
@[simp] theorem State.countDesync_lane : (s.countDesync).lane = s.lane := rfl

@[simp] theorem State.pushPhys_fw (p : Fin 2) (x : Rat) : (s.pushPhys p x).fw = s.fw := rfl
@[simp] theorem State.pushPhys_wire (p : Fin 2) (x : Rat) : (s.pushPhys p x).wire = s.wire := rfl
@[simp] theorem State.pushPhys_linkUp (p : Fin 2) (x : Rat) : (s.pushPhys p x).linkUp = s.linkUp := rfl
@[simp] theorem State.pushPhys_dec (p : Fin 2) (x : Rat) : (s.pushPhys p x).dec = s.dec := rfl
@[simp] theorem State.pushPhys_ch (p : Fin 2) (x : Rat) : (s.pushPhys p x).ch = { s.ch with phys := s.ch.phys.set p (rbPush s.ch.phys[p] x s.cfg.sampleBufferDepth) } := rfl
@[simp] theorem State.pushPhys_cfg (p : Fin 2) (x : Rat) : (s.pushPhys p x).cfg = s.cfg := rfl
@[simp] theorem State.pushPhys_sched (p : Fin 2) (x : Rat) : (s.pushPhys p x).sched = s.sched := rfl
@[simp] theorem State.pushPhys_reply (p : Fin 2) (x : Rat) : (s.pushPhys p x).reply = s.reply := rfl
@[simp] theorem State.pushPhys_lane (p : Fin 2) (x : Rat) : (s.pushPhys p x).lane = s.lane := rfl

@[simp] theorem State.setDesc_fw (id : Nat) (d : Descriptor) : (s.setDesc id d).fw = s.fw := rfl
@[simp] theorem State.setDesc_wire (id : Nat) (d : Descriptor) : (s.setDesc id d).wire = s.wire := rfl
@[simp] theorem State.setDesc_linkUp (id : Nat) (d : Descriptor) : (s.setDesc id d).linkUp = s.linkUp := rfl
@[simp] theorem State.setDesc_dec (id : Nat) (d : Descriptor) : (s.setDesc id d).dec = s.dec := rfl
@[simp] theorem State.setDesc_ch (id : Nat) (d : Descriptor) : (s.setDesc id d).ch = { s.ch with derived := insertDesc id d s.ch.derived } := rfl
@[simp] theorem State.setDesc_cfg (id : Nat) (d : Descriptor) : (s.setDesc id d).cfg = s.cfg := rfl
@[simp] theorem State.setDesc_sched (id : Nat) (d : Descriptor) : (s.setDesc id d).sched = s.sched := rfl
@[simp] theorem State.setDesc_reply (id : Nat) (d : Descriptor) : (s.setDesc id d).reply = s.reply := rfl
@[simp] theorem State.setDesc_lane (id : Nat) (d : Descriptor) : (s.setDesc id d).lane = s.lane := rfl

@[simp] theorem State.dropDesc_fw (id : Nat) : (s.dropDesc id).fw = s.fw := rfl
@[simp] theorem State.dropDesc_wire (id : Nat) : (s.dropDesc id).wire = s.wire := rfl
@[simp] theorem State.dropDesc_linkUp (id : Nat) : (s.dropDesc id).linkUp = s.linkUp := rfl
@[simp] theorem State.dropDesc_dec (id : Nat) : (s.dropDesc id).dec = s.dec := rfl
@[simp] theorem State.dropDesc_ch (id : Nat) : (s.dropDesc id).ch = { s.ch with derived := eraseDesc id s.ch.derived } := rfl
@[simp] theorem State.dropDesc_cfg (id : Nat) : (s.dropDesc id).cfg = s.cfg := rfl
@[simp] theorem State.dropDesc_sched (id : Nat) : (s.dropDesc id).sched = s.sched := rfl
@[simp] theorem State.dropDesc_reply (id : Nat) : (s.dropDesc id).reply = s.reply := rfl
@[simp] theorem State.dropDesc_lane (id : Nat) : (s.dropDesc id).lane = s.lane := rfl

@[simp] theorem State.takeId_fw : (s.takeId).fw = s.fw := rfl
@[simp] theorem State.takeId_wire : (s.takeId).wire = s.wire := rfl
@[simp] theorem State.takeId_linkUp : (s.takeId).linkUp = s.linkUp := rfl
@[simp] theorem State.takeId_dec : (s.takeId).dec = s.dec := rfl
@[simp] theorem State.takeId_ch : (s.takeId).ch = { s.ch with nextId := s.ch.nextId + 1 } := rfl
@[simp] theorem State.takeId_cfg : (s.takeId).cfg = s.cfg := rfl
@[simp] theorem State.takeId_sched : (s.takeId).sched = s.sched := rfl
@[simp] theorem State.takeId_reply : (s.takeId).reply = s.reply := rfl
@[simp] theorem State.takeId_lane : (s.takeId).lane = s.lane := rfl

@[simp] theorem State.answer_fw (x : Status) : (s.answer x).fw = s.fw := rfl
@[simp] theorem State.answer_wire (x : Status) : (s.answer x).wire = s.wire := rfl
@[simp] theorem State.answer_linkUp (x : Status) : (s.answer x).linkUp = s.linkUp := rfl
@[simp] theorem State.answer_dec (x : Status) : (s.answer x).dec = s.dec := rfl
@[simp] theorem State.answer_ch (x : Status) : (s.answer x).ch = s.ch := rfl
@[simp] theorem State.answer_cfg (x : Status) : (s.answer x).cfg = s.cfg := rfl
@[simp] theorem State.answer_sched (x : Status) : (s.answer x).sched = s.sched := rfl
@[simp] theorem State.answer_reply (x : Status) : (s.answer x).reply = some x := rfl
@[simp] theorem State.answer_lane (x : Status) : (s.answer x).lane = s.lane := rfl

@[simp] theorem State.setResult_fw (x : XVal) : (s.setResult x).fw = s.fw := rfl
@[simp] theorem State.setResult_wire (x : XVal) : (s.setResult x).wire = s.wire := rfl
@[simp] theorem State.setResult_linkUp (x : XVal) : (s.setResult x).linkUp = s.linkUp := rfl
@[simp] theorem State.setResult_dec (x : XVal) : (s.setResult x).dec = s.dec := rfl
@[simp] theorem State.setResult_ch (x : XVal) : (s.setResult x).ch = s.ch := rfl
@[simp] theorem State.setResult_cfg (x : XVal) : (s.setResult x).cfg = s.cfg := rfl
@[simp] theorem State.setResult_sched (x : XVal) : (s.setResult x).sched = s.sched := rfl
@[simp] theorem State.setResult_reply (x : XVal) : (s.setResult x).reply = s.reply := rfl
@[simp] theorem State.setResult_lane (x : XVal) : (s.setResult x).lane = { s.lane with result := x } := rfl

@[simp] theorem State.schedule_fw (x : List Slot) : (s.schedule x).fw = s.fw := rfl
@[simp] theorem State.schedule_wire (x : List Slot) : (s.schedule x).wire = s.wire := rfl
@[simp] theorem State.schedule_linkUp (x : List Slot) : (s.schedule x).linkUp = s.linkUp := rfl
@[simp] theorem State.schedule_dec (x : List Slot) : (s.schedule x).dec = s.dec := rfl
@[simp] theorem State.schedule_ch (x : List Slot) : (s.schedule x).ch = s.ch := rfl
@[simp] theorem State.schedule_cfg (x : List Slot) : (s.schedule x).cfg = s.cfg := rfl
@[simp] theorem State.schedule_sched (x : List Slot) : (s.schedule x).sched = x ++ s.sched := rfl
@[simp] theorem State.schedule_reply (x : List Slot) : (s.schedule x).reply = s.reply := rfl
@[simp] theorem State.schedule_lane (x : List Slot) : (s.schedule x).lane = s.lane := rfl

@[simp] theorem State.takeSlot_fw (x : List Slot) : (s.takeSlot x).fw = s.fw := rfl
@[simp] theorem State.takeSlot_wire (x : List Slot) : (s.takeSlot x).wire = s.wire := rfl
@[simp] theorem State.takeSlot_linkUp (x : List Slot) : (s.takeSlot x).linkUp = s.linkUp := rfl
@[simp] theorem State.takeSlot_dec (x : List Slot) : (s.takeSlot x).dec = s.dec := rfl
@[simp] theorem State.takeSlot_ch (x : List Slot) : (s.takeSlot x).ch = s.ch := rfl
@[simp] theorem State.takeSlot_cfg (x : List Slot) : (s.takeSlot x).cfg = s.cfg := rfl
@[simp] theorem State.takeSlot_sched (x : List Slot) : (s.takeSlot x).sched = x := rfl
@[simp] theorem State.takeSlot_reply (x : List Slot) : (s.takeSlot x).reply = none := rfl

end Sys2Proof.Machine
end

