-- ==== Sys2Proof/Laws/Ops.lean ====
section
/-!
SUPPORT. What the operations over sequences and over the map of derived channels do.
-/

namespace Sys2Proof.Machine

/-! ### The bounded push -/

theorem rbPush_eq_drop {α : Type} (xs : List α) (x : α) (cap : Nat) (hcap : 1 ≤ cap) :
    rbPush xs x cap = (xs ++ [x]).drop (xs.length + 1 - cap) := by
  unfold rbPush
  split
  · rw [show xs.length + 1 - cap = 0 by omega, List.drop_zero]
  · rw [List.tail_drop, List.drop_append_of_le_length (by omega)]
    congr 2; omega

@[simp] theorem rbPush_length {α : Type} (xs : List α) (x : α) (cap : Nat) (hcap : 1 ≤ cap) :
    (rbPush xs x cap).length = min (xs.length + 1) cap := by
  rw [rbPush_eq_drop xs x cap hcap]; simp; omega

theorem rbPush_of_room {α : Type} {xs : List α} {cap : Nat} (x : α) (h : xs.length < cap) :
    rbPush xs x cap = xs ++ [x] := by simp [rbPush, h]

theorem rbPush_getLast {α : Type} (xs : List α) (x : α) (cap : Nat) :
    (rbPush xs x cap).getLast? = some x := by
  unfold rbPush; split <;> simp

theorem rbPush_length_le {α : Type} (xs : List α) (x : α) {cap : Nat} (hcap : 1 ≤ cap) :
    (rbPush xs x cap).length ≤ cap := by
  rw [rbPush_length xs x cap hcap]; omega

theorem rbPushAll_eq_drop {α : Type} (ys : List α) (cap : Nat) (hcap : 1 ≤ cap) :
    ∀ xs : List α, xs.length ≤ cap →
      rbPushAll xs ys cap = (xs ++ ys).drop (xs.length + ys.length - cap) := by
  induction ys with
  | nil => intro xs h; simp [rbPushAll, Nat.sub_eq_zero_of_le h]
  | cons y ys ih =>
    intro xs h
    have hstep : rbPushAll xs (y :: ys) cap = rbPushAll (rbPush xs y cap) ys cap := rfl
    rw [hstep, ih _ (rbPush_length_le xs y hcap), rbPush_length xs y cap hcap,
      rbPush_eq_drop xs y cap hcap,
      ← List.drop_append_of_le_length (l₂ := ys) (by simp), List.drop_drop]
    simp only [List.append_assoc, List.singleton_append, List.length_cons]
    congr 1; omega

theorem rbPushAll_length_le {α : Type} (xs ys : List α) {cap : Nat} (hcap : 1 ≤ cap)
    (h : xs.length ≤ cap) : (rbPushAll xs ys cap).length ≤ cap := by
  rw [rbPushAll_eq_drop ys cap hcap xs h]; simp; omega

/-! ### The map of derived channels -/

theorem findDesc_mem {id : Nat} {d : Descriptor} :
    ∀ {m : List (Nat × Descriptor)}, findDesc id m = some d → (id, d) ∈ m
  | (k, e) :: rest, h => by
    unfold findDesc at h
    split at h
    · next hk => cases h; subst hk; exact List.mem_cons_self
    · exact List.mem_cons_of_mem _ (findDesc_mem h)

@[simp] theorem findDesc_insertDesc_self (id : Nat) (d : Descriptor) :
    ∀ m : List (Nat × Descriptor), findDesc id (insertDesc id d m) = some d
  | [] => by simp [insertDesc, findDesc]
  | (k, e) :: rest => by
    unfold insertDesc
    split
    · simp [findDesc]
    · split
      · simp [findDesc]
      · next h => simp [findDesc, Ne.symm h, findDesc_insertDesc_self id d rest]

theorem findDesc_insertDesc_other {id id' : Nat} (d : Descriptor) (h : id' ≠ id) :
    ∀ m : List (Nat × Descriptor), findDesc id' (insertDesc id d m) = findDesc id' m
  | [] => by simp [insertDesc, findDesc, Ne.symm h]
  | (k, e) :: rest => by
    unfold insertDesc
    split
    · simp [findDesc, Ne.symm h]
    · split
      · next hk => subst hk; simp [findDesc, Ne.symm h]
      · simp [findDesc, findDesc_insertDesc_other d h rest]

theorem findDesc_eraseDesc_self (id : Nat) :
    ∀ m : List (Nat × Descriptor), findDesc id (eraseDesc id m) = none
  | [] => rfl
  | (k, e) :: rest => by
    by_cases hk : k = id
    · simpa [eraseDesc, hk] using findDesc_eraseDesc_self id rest
    · simpa [eraseDesc, hk, findDesc] using findDesc_eraseDesc_self id rest

theorem findDesc_eraseDesc_other {id id' : Nat} (h : id' ≠ id) :
    ∀ m : List (Nat × Descriptor), findDesc id' (eraseDesc id m) = findDesc id' m
  | [] => rfl
  | (k, e) :: rest => by
    by_cases hk : k = id
    · subst hk
      simpa [eraseDesc, findDesc, Ne.symm h] using findDesc_eraseDesc_other h rest
    · by_cases hk' : k = id'
      · simp [eraseDesc, hk', findDesc, h]
      · simpa [eraseDesc, hk, findDesc, hk'] using findDesc_eraseDesc_other h rest

theorem mem_insertDesc {id : Nat} {d : Descriptor} {x : Nat × Descriptor} :
    ∀ {m : List (Nat × Descriptor)}, x ∈ insertDesc id d m → x = (id, d) ∨ x ∈ m
  | [], h => by simpa [insertDesc] using h
  | (k, e) :: rest, h => by
    unfold insertDesc at h
    split at h
    · simpa using h
    · split at h
      · rcases List.mem_cons.1 h with h | h
        · exact .inl h
        · exact .inr (List.mem_cons_of_mem _ h)
      · rcases List.mem_cons.1 h with h | h
        · exact .inr (h ▸ List.mem_cons_self)
        · exact (mem_insertDesc h).imp_right (List.mem_cons_of_mem _)

/-- Setting a descriptor keeps the map in its canonical form. -/
theorem insertDesc_canonical (id : Nat) (d : Descriptor) :
    ∀ {m : List (Nat × Descriptor)}, derivedCanonical m → derivedCanonical (insertDesc id d m)
  | [], _ => by simp [insertDesc, derivedCanonical]
  | (k, e) :: rest, h => by
    have hr := (List.pairwise_cons.1 h)
    unfold insertDesc
    split
    · next hlt =>
      refine List.pairwise_cons.2 ⟨fun y hy => ?_, h⟩
      rcases List.mem_cons.1 hy with rfl | hy
      · exact hlt
      · exact Nat.lt_trans hlt (hr.1 y hy)
    · split
      · next heq => subst heq; exact List.pairwise_cons.2 ⟨hr.1, hr.2⟩
      · refine List.pairwise_cons.2 ⟨fun y hy => ?_, insertDesc_canonical id d hr.2⟩
        rcases mem_insertDesc hy with rfl | hy
        · show k < id; omega
        · exact hr.1 y hy

/-- Removing a descriptor keeps the map in its canonical form. -/
theorem eraseDesc_canonical (id : Nat) {m : List (Nat × Descriptor)}
    (h : derivedCanonical m) : derivedCanonical (eraseDesc id m) :=
  List.Pairwise.filter _ h

theorem insertDesc_length_of_live {id : Nat} (d : Descriptor) :
    ∀ {m : List (Nat × Descriptor)}, derivedCanonical m → (findDesc id m).isSome →
      (insertDesc id d m).length = m.length
  | (k, e) :: rest, hc, h => by
    have hr := List.pairwise_cons.1 hc
    unfold insertDesc
    split
    · next hlt =>
      obtain ⟨d', hd'⟩ := Option.isSome_iff_exists.1 h
      rcases List.mem_cons.1 (findDesc_mem hd') with he | he
      · cases he; exact absurd hlt (Nat.lt_irrefl _)
      · exact absurd (hr.1 _ he) (Nat.not_lt.2 (Nat.le_of_lt hlt))
    · split
      · simp
      · next hne =>
        have : (findDesc id rest).isSome := by simpa [findDesc, Ne.symm hne] using h
        simp [insertDesc_length_of_live d hr.2 this]

theorem insertDesc_length_le (id : Nat) (d : Descriptor) :
    ∀ m : List (Nat × Descriptor), (insertDesc id d m).length ≤ m.length + 1
  | [] => by simp [insertDesc]
  | (k, e) :: rest => by
    unfold insertDesc
    split
    · simp
    · split
      · simp
      · simpa using insertDesc_length_le id d rest

theorem eraseDesc_length_le (id : Nat) (m : List (Nat × Descriptor)) :
    (eraseDesc id m).length ≤ m.length := List.length_filter_le _ _

/-! ### Reads of the state through its updates -/

@[simp] theorem desc_setDesc_self (s : State) (id : Nat) (d : Descriptor) :
    (s.setDesc id d).desc id = some d := findDesc_insertDesc_self id d _

theorem desc_setDesc_other (s : State) {id id' : Nat} (d : Descriptor) (h : id' ≠ id) :
    (s.setDesc id d).desc id' = s.desc id' := findDesc_insertDesc_other d h _

theorem desc_dropDesc_self (s : State) (id : Nat) : (s.dropDesc id).desc id = none :=
  findDesc_eraseDesc_self id _

theorem desc_dropDesc_other (s : State) {id id' : Nat} (h : id' ≠ id) :
    (s.dropDesc id).desc id' = s.desc id' := findDesc_eraseDesc_other h _

theorem physBuf_of_lt (s : State) {c : Nat} (h : c < 2) : s.physBuf c = some s.ch.phys[c] := by
  simp [State.physBuf, h]

theorem pushPhys_phys_self (s : State) (p : Fin 2) (x : Rat) :
    (s.pushPhys p x).ch.phys[p] = rbPush s.ch.phys[p] x s.cfg.sampleBufferDepth := by
  simp

theorem pushPhys_phys_other (s : State) {p p' : Fin 2} (x : Rat) (h : p' ≠ p) :
    (s.pushPhys p x).ch.phys[p'] = s.ch.phys[p'] := by
  have h' : p.val ≠ p'.val := fun e => h (Fin.ext e.symm)
  simp [h']

end Sys2Proof.Machine
end

