-- ==== Sys2Proof/Laws/Exec.lean ====
section
/-!
SUPPORT. What each meaning can do: if it answers a next state, then under this condition and with this state. One lemma per
instruction, and one for a step.
-/

namespace Sys2Proof.Machine

theorem hold_ne_next {why : Hold} {t : State} : hold why ≠ .next t := nofun

theorem execSmpConvert_next {v : Code} {s t : State} (h : execSmpConvert v s = .next t) :
    ∃ hk : s.fw.k < 4, t = s.setFw ⟨s.fw.k + 1, s.fw.acc.set s.fw.k (some v) hk⟩ := by
  unfold execSmpConvert at h
  split at h
  · next hk => cases h; exact ⟨hk, rfl⟩
  · cases h

theorem execSmpEmit_next {s t : State} (h : execSmpEmit s = .next t) :
    s.fw.k = 4 ∧ ∃ q, groupOf s.fw.acc = some q ∧
      t = (transmit (pack q) s).setFw ⟨0, #v[none, none, none, none]⟩ := by
  unfold execSmpEmit at h
  split at h
  · next hk =>
    split at h
    · next q hq => cases h; exact ⟨hk, q, hq, rfl⟩
    · cases h
  · cases h

theorem execLnkDrop_next {s t : State} (h : execLnkDrop s = .next t) :
    ∃ b rest, s.wire = b :: rest ∧ t = s.setWire rest := by
  unfold execLnkDrop at h
  split at h
  · cases h
  · next b rest hw => cases h; exact ⟨b, rest, hw, rfl⟩

theorem execLnkDown_next {s t : State} (h : execLnkDown s = .next t) :
    s.linkUp = true ∧ t = ((s.setLink false).setWire []).answer .linkLost := by
  unfold execLnkDown at h
  split at h
  · next hu => cases h; exact ⟨hu, rfl⟩
  · cases h

theorem execLnkUp_next {s t : State} (h : execLnkUp s = .next t) :
    s.linkUp = false ∧ t = s.setLink true := by
  unfold execLnkUp at h
  split at h
  · cases h
  · next hu => cases h; exact ⟨by simpa using hu, rfl⟩

theorem execDecIngest_next {s t : State} (h : execDecIngest s = .next t) :
    s.linkUp = true ∧ s.dec.asm.length < 5 ∧ ∃ b rest, s.wire = b :: rest ∧
      t = (s.setAsm (s.dec.asm ++ [b])).setWire rest := by
  unfold execDecIngest at h
  split at h
  · next hu =>
    split at h
    · cases h
    · next b rest hw =>
      split at h
      · next hl => cases h; exact ⟨hu, hl, b, rest, hw, rfl⟩
      · cases h
  · cases h

theorem execDecUnpack_next {s t : State} (h : execDecUnpack s = .next t) :
    ∃ b0 b1 b2 b3 b4, s.dec.asm = [b0, b1, b2, b3, b4] ∧
      detect s.cfg.desyncDetect (detectContext s) .plausible = true ∧
      t = (s.setQueue (rbPushAll s.dec.queue (quadCodes (unpack b0 b1 b2 b3 b4)) s.cfg.hostQueueDepth)).setAsm [] := by
  unfold execDecUnpack at h
  split at h
  · next b0 b1 b2 b3 b4 ha =>
    split at h
    · next hd => cases h; exact ⟨b0, b1, b2, b3, b4, ha, hd, rfl⟩
    · cases h
  · cases h

theorem execDecSlip_next {s t : State} (h : execDecSlip s = .next t) :
    s.dec.asm.length = 5 ∧ detect s.cfg.desyncDetect (detectContext s) .implausible = true ∧
      t = (s.setAsm s.dec.asm.tail).countDesync := by
  unfold execDecSlip at h
  split at h
  · next hl =>
    split at h
    · next hd => cases h; exact ⟨hl, hd, rfl⟩
    · cases h
  · cases h

theorem execDecPush_next {s t : State} (h : execDecPush s = .next t) :
    ∃ c rest, s.dec.queue = c :: rest ∧ t = (s.setQueue rest).pushPhys s.cfg.owner (scale s.cfg c) := by
  unfold execDecPush at h
  split at h
  · cases h
  · next c rest hq => cases h; exact ⟨c, rest, hq, rfl⟩

theorem execEnvFeed_next {v : Code} {s t : State} (h : execEnvFeed v s = .next t) :
    t = s.pushPhys (otherChannel s.cfg) (scale s.cfg v) := by cases h; rfl

/-- A creation rejects, with only the reply written, or gives the next id to a new channel. -/
theorem execMthCreate_next {ctl : Ctl} {a b : Nat} {s t : State} (h : execMthCreate ctl a b s = .next t) :
    (∃ st, (st = .invalidChannel ∨ st = .nestingTooDeep ∨ st = .channelLimitReached) ∧ t = s.answer st) ∨
    (s.chanExists a = true ∧ s.chanExists b = true ∧ s.level a = 0 ∧ s.level b = 0 ∧
      s.ch.derived.length ≠ maxDerived ∧
      t = ((s.setDesc s.ch.nextId ⟨ctl, a, b, 1, [], none⟩).takeId).answer (.ok (some s.ch.nextId))) := by
  unfold execMthCreate at h
  split at h
  · cases h; exact .inl ⟨_, .inl rfl, rfl⟩
  · next he =>
    split at h
    · cases h; exact .inl ⟨_, .inr (.inl rfl), rfl⟩
    · next hl =>
      split at h
      · cases h; exact .inl ⟨_, .inr (.inr rfl), rfl⟩
      · next hn =>
        cases h
        simp only [not_or, Bool.not_eq_false, maxMathLevel] at he hl
        exact .inr ⟨he.1, he.2, by omega, by omega, hn, rfl⟩

/-- A deletion rejects, with only the reply written, or removes a live channel whose recompute is not in flight. -/
theorem execMthDelete_next {id : Nat} {s t : State} (h : execMthDelete id s = .next t) :
    (s.desc id = none ∧ t = s.answer .invalidChannel) ∨
    (∃ d, s.desc id = some d ∧ d.work = none ∧ t = (s.dropDesc id).answer (.ok none)) := by
  unfold execMthDelete at h
  split at h
  · next hd => cases h; exact .inl ⟨hd, rfl⟩
  · next d hd =>
    split at h
    · next hw => cases h; exact .inr ⟨d, hd, hw, rfl⟩
    · cases h

theorem execMthRecompute_next {id : Nat} {s t : State} (h : execMthRecompute id s = .next t) :
    s.cfg.recomputeAtomic = true ∧ ∃ d bufA bufB, s.desc id = some d ∧
      operandBuffers s d = some (bufA, bufB) ∧
      t = s.setDesc id { d with buf := pointwise d.ctl bufA bufB } := by
  unfold execMthRecompute at h
  split at h
  · next hm =>
    split at h
    · cases h
    · next d hd =>
      split at h
      · cases h
      · next bufA bufB ho => cases h; exact ⟨hm, d, bufA, bufB, hd, ho, rfl⟩
  · cases h

theorem execMthBegin_next {id : Nat} {s t : State} (h : execMthBegin id s = .next t) :
    s.cfg.recomputeAtomic = false ∧ ∃ d, s.desc id = some d ∧ d.work = none ∧
      t = s.setDesc id { d with work := some (0, []) } := by
  unfold execMthBegin at h
  split at h
  · cases h
  · next hm =>
    split at h
    · cases h
    · next d hd =>
      split at h
      · next hw => cases h; exact ⟨by simpa using hm, d, hd, hw, rfl⟩
      · cases h

/-- An element step computes the next element, or finishes where an operand buffer has none. -/
theorem execMthElem_next {id : Nat} {s t : State} (h : execMthElem id s = .next t) :
    s.cfg.recomputeAtomic = false ∧ ∃ d i acc bufA bufB, s.desc id = some d ∧
      d.work = some (i, acc) ∧ operandBuffers s d = some (bufA, bufB) ∧
      ((∃ x y, bufA[i]? = some x ∧ bufB[i]? = some y ∧
          t = s.setDesc id { d with work := some (i + 1, acc ++ [applyCtl d.ctl x y]) }) ∨
        ((bufA[i]? = none ∨ bufB[i]? = none) ∧ t = s.setDesc id { d with buf := acc, work := none })) := by
  unfold execMthElem at h
  split at h
  · cases h
  · next hm =>
    split at h
    · cases h
    · next d hd =>
      split at h
      · cases h
      · next i acc hw =>
        split at h
        · cases h
        · next bufA bufB ho =>
          refine ⟨by simpa using hm, d, i, acc, bufA, bufB, hd, hw, ho, ?_⟩
          split at h
          · next x y hx hy => cases h; exact .inl ⟨x, y, hx, hy, rfl⟩
          · next hno =>
            cases h
            refine .inr ⟨?_, rfl⟩
            cases hx : bufA[i]? with
            | none => exact .inl rfl
            | some x =>
              cases hy : bufB[i]? with
              | none => exact .inr rfl
              | some y => exact absurd hy (hno x y hx)

theorem execRstFw_next {s t : State} (h : execRstFw s = .next t) :
    t = s.setFw ⟨0, #v[none, none, none, none]⟩ := by cases h; rfl

theorem execRstHost_next {s t : State} (h : execRstHost s = .next t) :
    t = { s with dec := ⟨[], 0, []⟩, ch := ⟨#v[[], []], [], 2⟩ } := by cases h; rfl

/-- A point-wise operator writes the lane's result and nothing else. -/
theorem exec_operator_next {i : Instr} {s t : State} (hi : (toCtl i).isSome) (h : exec i s = .next t) :
    ∃ x, t = s.setResult x := by
  cases i <;> first
    | (simp [toCtl] at hi; done)
    | (cases h; exact ⟨_, rfl⟩)

/-- No meaning refuses. -/
theorem exec_not_refused (i : Instr) (s : State) (r : Refusal) : exec i s ≠ .refused r := by
  intro h
  cases i <;>
    simp only [exec, execSmpConvert, execSmpEmit, execLnkDrop, execLnkDown, execLnkUp, execDecIngest, execDecUnpack,
      execDecSlip, execDecPush, execEnvFeed, execMthCreate, execMthDelete, execMthRecompute, execMthBegin, execMthElem,
      execRstFw, execRstHost, execAdd, execSubAB, execSubBA, execMul, execDivAB, execDivBA, hold] at h <;>
    (repeat' split at h) <;> cases h

/-- A step that answers a next state ran the instruction it fetched. -/
theorem step_next {s t : State} (h : step s = .next t) :
    ∃ i rest, decodeSlots s.sched = some (.ok (i, rest)) ∧ exec i (s.takeSlot rest) = .next t := by
  unfold step fetch at h
  split at h
  · next i s' hf =>
    split at hf <;> cases hf
    next rest hd => exact ⟨i, rest, hd, h⟩
  · cases h
  · cases h

end Sys2Proof.Machine
end

