-- ==== Sys2Proof/Laws/PerInstr.lean ====
section
/-!
SUPPORT. The per-instruction family LabelForm: every instruction has exactly one of the table's two forms, a well-formed label that
decodes to it, or an operator word that decodes to it (30_encoding.md R93, R95).
-/

namespace Sys2Proof.Laws.LabelForm

/-- The instruction's label is well-formed and decodes to it, or it has no label and its operator word decodes to it. -/
def Statement (i : Instr) : Prop :=
  (∃ l, toLabel i = some l ∧ toCtl i = none ∧ l.wf = true ∧ decodeLabel l = .ok i) ∨
  (∃ c, toLabel i = none ∧ toCtl i = some c ∧ decodeCtl c = i)

theorem smpConvert (v : Code) : Statement (.smpConvert v) :=
  .inl ⟨_, rfl, rfl, by simp [Label.wf, Label.opcodeAssigned, Label.arityRight, Label.argsInRange, argKinds,
    ArgKind.inRange, v.isLt], by simp [decodeLabel, v.isLt]⟩
theorem smpEmit : Statement .smpEmit := .inl ⟨_, rfl, rfl, rfl, rfl⟩
theorem lnkDrop : Statement .lnkDrop := .inl ⟨_, rfl, rfl, rfl, rfl⟩
theorem lnkDown : Statement .lnkDown := .inl ⟨_, rfl, rfl, rfl, rfl⟩
theorem lnkUp : Statement .lnkUp := .inl ⟨_, rfl, rfl, rfl, rfl⟩
theorem decIngest : Statement .decIngest := .inl ⟨_, rfl, rfl, rfl, rfl⟩
theorem decUnpack : Statement .decUnpack := .inl ⟨_, rfl, rfl, rfl, rfl⟩
theorem decSlip : Statement .decSlip := .inl ⟨_, rfl, rfl, rfl, rfl⟩
theorem decPush : Statement .decPush := .inl ⟨_, rfl, rfl, rfl, rfl⟩
theorem envFeed (v : Code) : Statement (.envFeed v) :=
  .inl ⟨_, rfl, rfl, by simp [Label.wf, Label.opcodeAssigned, Label.arityRight, Label.argsInRange, argKinds,
    ArgKind.inRange, v.isLt], by simp [decodeLabel, v.isLt]⟩
theorem mthCreate (ctl : Ctl) (a b : Nat) : Statement (.mthCreate ctl a b) :=
  .inl ⟨_, rfl, rfl, by simp [Label.wf, Label.opcodeAssigned, Label.arityRight, Label.argsInRange, argKinds,
    ArgKind.inRange, ctl.isLt], by simp [decodeLabel, ctl.isLt]⟩
theorem mthDelete (id : Nat) : Statement (.mthDelete id) := .inl ⟨_, rfl, rfl, rfl, rfl⟩
theorem mthRecompute (id : Nat) : Statement (.mthRecompute id) := .inl ⟨_, rfl, rfl, rfl, rfl⟩
theorem mthBegin (id : Nat) : Statement (.mthBegin id) := .inl ⟨_, rfl, rfl, rfl, rfl⟩
theorem mthElem (id : Nat) : Statement (.mthElem id) := .inl ⟨_, rfl, rfl, rfl, rfl⟩
theorem rstFw : Statement .rstFw := .inl ⟨_, rfl, rfl, rfl, rfl⟩
theorem rstHost : Statement .rstHost := .inl ⟨_, rfl, rfl, rfl, rfl⟩
theorem add : Statement .add := .inr ⟨_, rfl, rfl, rfl⟩
theorem subAB : Statement .subAB := .inr ⟨_, rfl, rfl, rfl⟩
theorem subBA : Statement .subBA := .inr ⟨_, rfl, rfl, rfl⟩
theorem mul : Statement .mul := .inr ⟨_, rfl, rfl, rfl⟩
theorem divAB : Statement .divAB := .inr ⟨_, rfl, rfl, rfl⟩
theorem divBA : Statement .divBA := .inr ⟨_, rfl, rfl, rfl⟩

end Sys2Proof.Laws.LabelForm
end

