-- ==== Sys2Proof/Tests/Slice0.lean ====
section
/-!
SUPPORT. The model's own tests: ill-formed labels refused, words written out from 30_encoding.md decoded, vectors of
95_test_vectors.md, and a witness for the hypotheses of each statement.
-/

-- Each theorem here is decided by the kernel; checking them one after another keeps their memory within the limit.
set_option Elab.async false

namespace Sys2Proof.Tests

open Sys2Proof Sys2Proof.Machine

/-! ### Helpers -/

/-- The default parameters of 95_test_vectors.md. -/
def cfg8 : Config := ⟨8, 8, 1, 0, 0, .never, true, .by32, 250000, ""⟩

/-- The power-on state under those parameters. -/
def s0 : State := { State.reset with cfg := cfg8 }

/-- The same with the non-atomic recompute of program P5. -/
def e0 : State := { s0 with cfg := { cfg8 with recomputeAtomic := false } }

/-- The next state an outcome gives, if it gives one. -/
def after : Result → Option State
  | .next t => some t
  | _ => none

/-- The fault an outcome gives, if it gives one. -/
def stop : Result → Option Fault
  | .fault f => some f
  | _ => none

theorem next_of_after {r : Result} {t : State} (h : after r = some t) : r = .next t := by
  cases r with
  | next u => cases h; rfl
  | fault _ => cases h
  | refused _ => cases h

/-- A descriptor as MTH.CREATE makes it. -/
def fresh (ctl : Ctl) (a b : Nat) : Descriptor := ⟨ctl, a, b, 1, [], none⟩

/-- A state with operand buffers and live channels. -/
def withCh (s : State) (bufA bufB : List Rat) (m : List (Nat × Descriptor)) : State :=
  { s with ch := ⟨#v[bufA, bufB], m, 5⟩ }

/-- A state with a full window. -/
def withAsm (s : State) (bs : List Byte) : State := { s with dec := ⟨bs, 0, []⟩ }

/-! ### Well-formedness: an ill-formed term for each check (R96, R97, R98) -/

theorem test_wf_good : Label.wf ⟨0x31, [7, 0, 300]⟩ = true := by decide
theorem test_wf_opcode : Label.opcodeAssigned ⟨0x03, []⟩ = false ∧ Label.wf ⟨0x03, []⟩ = false := by decide
theorem test_wf_arity : Label.arityRight ⟨0x01, []⟩ = false ∧ Label.wf ⟨0x01, []⟩ = false := by decide
theorem test_wf_sample : ArgKind.inRange .sample 1024 = false ∧ Label.wf ⟨0x25, [1024]⟩ = false := by decide
theorem test_wf_ctl : ArgKind.inRange .ctl 8 = false ∧ Label.argsInRange ⟨0x31, [8, 0, 1]⟩ = false := by decide
theorem test_wf_create_a : (Instr.mthCreate 0 256 1).wf = false := by decide
theorem test_wf_create_b : (Instr.mthCreate 0 1 256).wf = false := by decide
theorem test_wf_delete : (Instr.mthDelete 256).wf = false := by decide
theorem test_wf_recompute : (Instr.mthRecompute 256).wf = false := by decide
theorem test_wf_begin : (Instr.mthBegin 256).wf = false := by decide
theorem test_wf_elem : (Instr.mthElem 256).wf = false := by decide

/-! ### Decoding: words written out from R95, R98 and R93 -/

theorem test_decode_convert : decode [0x01, 0xFF, 0x03] = .ok (.smpConvert 1023, []) := by decide +kernel
theorem test_decode_emit : decode [0x02, 0x21] = .ok (.smpEmit, [0x21]) := by decide +kernel
theorem test_decode_drop : decode [0x11] = .ok (.lnkDrop, []) := by decide +kernel
theorem test_decode_down : decode [0x12] = .ok (.lnkDown, []) := by decide +kernel
theorem test_decode_up : decode [0x13] = .ok (.lnkUp, []) := by decide +kernel
theorem test_decode_ingest : decode [0x21] = .ok (.decIngest, []) := by decide +kernel
theorem test_decode_unpack : decode [0x22] = .ok (.decUnpack, []) := by decide +kernel
theorem test_decode_slip : decode [0x23] = .ok (.decSlip, []) := by decide +kernel
theorem test_decode_push : decode [0x24] = .ok (.decPush, []) := by decide +kernel
theorem test_decode_feed : decode [0x25, 0x00, 0x02] = .ok (.envFeed 512, []) := by decide +kernel
theorem test_decode_create : decode [0x31, 0x03, 0x00, 0x01] = .ok (.mthCreate 0b011 0 1, []) := by decide +kernel
theorem test_decode_delete : decode [0x32, 0x03] = .ok (.mthDelete 3, []) := by decide +kernel
theorem test_decode_recompute : decode [0x33, 0x02] = .ok (.mthRecompute 2, []) := by decide +kernel
theorem test_decode_begin : decode [0x34, 0x02] = .ok (.mthBegin 2, []) := by decide +kernel
theorem test_decode_elem : decode [0x35, 0xFF] = .ok (.mthElem 255, []) := by decide +kernel
theorem test_decode_rstFw : decode [0x51] = .ok (.rstFw, []) := by decide +kernel
theorem test_decode_rstHost : decode [0x52] = .ok (.rstHost, []) := by decide +kernel
theorem test_decode_add : decodeCtl 0b000 = .add ∧ decodeCtl 0b100 = .add := by decide
theorem test_decode_subAB : decodeCtl 0b001 = .subAB := by decide
theorem test_decode_subBA : decodeCtl 0b101 = .subBA := by decide
theorem test_decode_mul : decodeCtl 0b010 = .mul ∧ decodeCtl 0b110 = .mul := by decide
theorem test_decode_divAB : decodeCtl 0b011 = .divAB := by decide
theorem test_decode_divBA : decodeCtl 0b111 = .divBA := by decide

/-- SV-10 and R98: a sample above 1023, a nonzero must-be-zero bit of `ctl`, a form cut short. -/
theorem test_decode_refused :
    decode [0x01, 0x00, 0x04] = .error .sampleOutOfRange ∧ decodeLabel ⟨0x01, [1024]⟩ = .error .sampleOutOfRange ∧
    decode [0x31, 0x08, 0x00, 0x01] = .error .ctlOutOfRange ∧ decode [0x31, 0x00, 0x00] = .error .truncated ∧
    decode [] = .error .truncated ∧ decodeLabel ⟨0x02, [0]⟩ = .error .wrongArguments := by decide +kernel

/-- The words of the opcode table: OP8 words in bytes, CTL3 words in 3 bits or, where no OP8 row has them, in 8. -/
theorem test_table_words :
    decodeTableWord 8 0x01 = some (.smpConvert 0) ∧ decodeTableWord 24 0x03FF01 = some (.smpConvert 1023) ∧
    decodeTableWord 8 0x31 = some (.mthCreate 0 0 0) ∧ decodeTableWord 32 0x01000531 = some (.mthCreate 0b101 0 1) ∧
    decodeTableWord 3 0b001 = some .subAB ∧ decodeTableWord 3 0b010 = some .mul ∧
    decodeTableWord 8 0x05 = some .subBA ∧ decodeTableWord 8 0x60 = none := by decide +kernel

/-- A table word placed after reset is what the next step runs: SMP.CONVERT with v = 0, and LNK.DOWN. -/
theorem test_place_and_step :
    (after (step (State.reset.withFetchWord 8 0x01))).map (·.fw) = some ⟨1, #v[some 0, none, none, none]⟩ ∧
    (after (step (State.reset.withFetchWord 8 0x12))).map (·.linkUp) = some false ∧
    (after (step (State.reset.withFetchWord 3 0b111))).map (·.lane.result) = some (.fin 1) := by decide +kernel

/-! ### Packets (95_test_vectors.md 2.1, 2.2) -/

/-- PK-1, PK-11 and PK-14. -/
theorem test_pack :
    pack ⟨100, 200, 300, 400⟩ = [0x64, 0x20, 0xC3, 0x12, 0x64] ∧
    pack ⟨341, 682, 341, 682⟩ = [0x55, 0xA9, 0x5A, 0x95, 0xAA] ∧
    pack ⟨1000, 10, 500, 999⟩ = [0xE8, 0x2B, 0x40, 0xDF, 0xF9] := by decide +kernel

/-- UM-1, UM-2, UM-3 and UM-4. -/
theorem test_unpack_misaligned :
    unpack 0x20 0xC3 0x12 0x64 0x01 = ⟨800, 176, 577, 5⟩ ∧ unpack 0xC3 0x12 0x64 0x01 0x08 = ⟨707, 260, 22, 32⟩ ∧
    unpack 0x12 0x64 0x01 0x08 0x30 = ⟨18, 89, 128, 192⟩ ∧ unpack 0x64 0x01 0x08 0x30 0x00 = ⟨356, 512, 768, 0⟩ := by
  decide +kernel

/-- RB-1 to RB-4. -/
theorem test_rbPush :
    rbPush ([] : List Nat) 1 3 = [1] ∧ rbPush [1, 2] 3 3 = [1, 2, 3] ∧ rbPush [1, 2, 3] 4 3 = [2, 3, 4] ∧
    rbPush [7] 8 1 = [8] := by decide

/-! ### Operations (95_test_vectors.md 2.3 to 2.6) -/

/-- SV-1 and SV-2. -/
theorem test_convert :
    (after (exec (.smpConvert 100) s0)).map (·.fw) = some ⟨1, #v[some 100, none, none, none]⟩ ∧
    (after (exec (.smpConvert 1023) { s0 with fw := ⟨3, #v[some 0, some 1023, some 5, none]⟩ })).map (·.fw) =
      some ⟨4, #v[some 0, some 1023, some 5, some 1023]⟩ := by decide +kernel

/-- SV-3 and SV-4. -/
theorem test_firmware_holds :
    stop (exec (.smpConvert 7) { s0 with fw := ⟨4, #v[some 0, some 0, some 0, some 0]⟩ }) = some (.noStep .groupFull) ∧
    stop (exec .smpEmit { s0 with fw := ⟨3, #v[some 0, some 0, some 0, none]⟩ }) = some (.noStep .groupNotFull) := by
  decide +kernel

/-- A full group, the samples 1, 2, 3, 4. -/
def full : State := { s0 with fw := ⟨4, #v[some 1, some 2, some 3, some 4]⟩ }

/-- SV-6 and SV-7. -/
theorem test_emit :
    (after (exec .smpEmit { full with wire := [0x05] })).map (fun t => (t.wire, t.fw)) =
      some ([0x05, 0x01, 0x08, 0x30, 0x00, 0x01], ⟨0, #v[none, none, none, none]⟩) ∧
    (after (exec .smpEmit { full with linkUp := false })).map (fun t => (t.wire, t.fw.k)) = some ([], 0) := by
  decide +kernel

/-- DV-1. -/
theorem test_ingest : (after (exec .decIngest { s0 with wire := [0x64, 0x20] })).map (fun t => (t.dec.asm, t.wire)) =
    some ([0x64], [0x20]) := by decide +kernel

/-- DV-2 and DV-4. -/
theorem test_ingest_holds :
    stop (exec .decIngest { s0 with linkUp := false }) = some (.noStep .linkAbsent) ∧
    stop (exec .decIngest { withAsm s0 [1, 2, 3, 4, 5] with wire := [0x01] }) = some (.noStep .windowFull) := by
  decide +kernel

/-- A state under a configuration, with a decoder and buffers. -/
def withDec (cfg : Config) (dec : Decoder) (bufA : List Rat) : State :=
  { s0 with cfg := cfg, dec := dec, ch := ⟨#v[bufA, []], [], 2⟩ }

/-- DV-9. -/
theorem test_unpack_evicts :
    (after (exec .decUnpack (withDec { cfg8 with hostQueueDepth := 2 } ⟨[0x01, 0x08, 0x30, 0x00, 0x01], 0, [9]⟩ []))).map
      (·.dec) = some ⟨[], 0, [3, 4]⟩ := by decide +kernel

/-- DV-7 and DV-8. -/
theorem test_slip :
    stop (exec .decSlip (withAsm s0 [0x20, 0xC3, 0x12, 0x64, 0x01])) = some (.noStep .notImplausible) ∧
    (after (exec .decSlip (withDec { cfg8 with desyncDetect := .any } ⟨[0x20, 0xC3, 0x12, 0x64, 0x01], 0, []⟩ []))).map
      (·.dec) = some ⟨[0xC3, 0x12, 0x64, 0x01], 1, []⟩ := by
  decide +kernel

/-- DV-13 and the first step of DV-14. -/
theorem test_push :
    (after (exec .decPush (withDec { cfg8 with sampleBufferDepth := 2 } ⟨[], 0, [3]⟩ [1, 2]))).map (fun t => (t.ch.phys, t.dec.queue)) = some (#v[[2, 3], []], []) ∧
    (after (exec .decPush (withDec { cfg8 with gainOffset := -512 } ⟨[], 0, [0, 1023]⟩ []))).map (fun t => (t.ch.phys, t.dec.queue)) = some (#v[[-512], []], [1023]) := by decide +kernel

/-- DV-15. -/
theorem test_feed :
    (after (exec (.envFeed 512) { s0 with cfg := { cfg8 with gainLsb := 1 / 1024 } })).map (·.ch.phys) =
      some #v[[], [1 / 2]] := by decide +kernel

/-- DV-16 and DV-17. -/
theorem test_drop :
    (after (exec .lnkDrop { s0 with wire := [0x64, 0x20, 0xC3] })).map (·.wire) = some [0x20, 0xC3] ∧
    stop (exec .lnkDrop s0) = some (.noStep .wireEmpty) := by decide +kernel

/-- DV-18. -/
theorem test_down :
    (after (exec .lnkDown { withAsm s0 [0x64, 0x20] with wire := [0xC3, 0x12, 0x64] })).map
      (fun t => (t.linkUp, t.wire, t.dec.asm, t.reply)) = some (false, [], [0x64, 0x20], some .linkLost) := by
  decide +kernel

/-- The return of DV-19, and DV-20. -/
theorem test_up :
    (after (exec .lnkUp { s0 with linkUp := false })).map (·.linkUp) = some true ∧
    stop (exec .lnkUp s0) = some (.noStep .linkPresent) := by decide +kernel

/-- MC-1 and MC-4. -/
theorem test_create :
    (after (exec (.mthCreate 0 0 1) s0)).map (fun t => (t.reply, t.ch.derived, t.ch.nextId)) =
      some (some (.ok (some 2)), [(2, fresh 0 0 1)], 3) ∧
    (after (exec (.mthCreate 0 2 0) (withCh s0 [] [] [(2, fresh 0 0 1)]))).map (·.reply) = some (some .nestingTooDeep) := by
  decide +kernel

/-- MC-5 and MC-6, and MC-3. -/
theorem test_create_order :
    (after (exec (.mthCreate 0 2 0) (withCh s0 [] [] [(2, fresh 0 0 1), (3, fresh 0 0 1), (4, fresh 0 0 1)]))).map (·.reply) =
      some (some .nestingTooDeep) ∧
    (after (exec (.mthCreate 0 9 0) (withCh s0 [] [] [(2, fresh 0 0 1)]))).map (·.reply) = some (some .invalidChannel) ∧
    (after (exec (.mthCreate 0 0 1) (withCh s0 [] [] [(2, fresh 0 0 1), (3, fresh 0 0 1), (4, fresh 0 0 1)]))).map (·.reply) =
      some (some .channelLimitReached) := by decide +kernel

/-- MC-7's deletion, MC-8 and MC-9. -/
theorem test_delete :
    (after (exec (.mthDelete 3) (withCh s0 [] [] [(2, fresh 0 0 1), (3, fresh 0 0 1), (4, fresh 0 0 1)]))).map
      (fun t => (t.reply, t.ch.derived.map (·.1), t.ch.nextId)) = some (some (.ok none), [2, 4], 5) ∧
    (after (exec (.mthDelete 0) s0)).map (·.reply) = some (some .invalidChannel) ∧
    (after (exec (.mthDelete 3) (withCh s0 [] [] [(2, fresh 0 0 1), (4, fresh 0 0 1)]))).map (·.reply) =
      some (some .invalidChannel) := by decide +kernel

/-- A live channel 2 whose element-wise recompute is at index 1, as in MC-10 and program P5. -/
def inFlight1 : State := withCh e0 [1, 2] [20, 30] [(2, ⟨0, 0, 1, 1, [], some (1, [.fin 11])⟩)]

/-- MC-10. -/
theorem test_delete_holds : stop (exec (.mthDelete 2) inFlight1) = some (.noStep .recomputeInFlight) := by decide +kernel

/-- RC-1 and RC-3. -/
theorem test_recompute :
    (after (exec (.mthRecompute 2) (withCh s0 [1, 2, 3] [10, 20] [(2, fresh 0 0 1)]))).map (fun t => t.ch.derived.map (·.2.buf)) =
      some [[.fin 11, .fin 22]] ∧
    (after (exec (.mthRecompute 2) (withCh s0 [0, 5, -5, 6] [0, 0, 0, 3] [(2, fresh 0b011 0 1)]))).map
      (fun t => t.ch.derived.map (·.2.buf)) = some [[.fin 1, .posInf, .negInf, .fin 2]] := by decide +kernel

/-- RC-5, and the parameter of program P5. -/
theorem test_recompute_holds :
    stop (exec (.mthRecompute 2) s0) = some (.noStep .channelNotLive) ∧
    stop (exec (.mthRecompute 2) inFlight1) = some (.noStep .recomputeElementwise) := by decide +kernel

/-- P5: BEGIN. -/
theorem test_begin :
    (after (exec (.mthBegin 2) (withCh e0 [1, 2] [10, 20] [(2, fresh 0 0 1)]))).map (fun t => t.ch.derived.map (·.2.work)) =
      some [some (0, [])] := by decide +kernel

/-- P5: the second and the last ELEM. -/
theorem test_elem :
    (after (exec (.mthElem 2) inFlight1)).map (fun t => t.ch.derived.map (·.2.work)) = some [some (2, [.fin 11, .fin 32])] ∧
    (after (exec (.mthElem 2) (withCh e0 [1, 2] [20, 30] [(2, ⟨0, 0, 1, 1, [], some (2, [.fin 11, .fin 32])⟩)]))).map
      (fun t => t.ch.derived.map (fun e => (e.2.buf, e.2.work))) = some [([.fin 11, .fin 32], none)] := by decide +kernel

/-- SV-8. -/
theorem test_rstFw :
    (after (exec .rstFw { s0 with fw := ⟨3, #v[some 1, some 2, some 3, none]⟩, wire := [0x12] })).map (fun t => (t.fw, t.wire)) =
      some (⟨0, #v[none, none, none, none]⟩, [0x12]) := by decide +kernel

/-- DV-21. -/
theorem test_rstHost :
    (after (exec .rstHost { inFlight1 with wire := [0x12, 0x64], dec := ⟨[0x01], 7, [9]⟩ })).map (fun t => (t.dec, t.ch, t.wire)) =
      some (⟨[], 0, []⟩, ⟨#v[[], []], [], 2⟩, [0x12, 0x64]) := by decide +kernel

/-- The result of an operator word on a pair, through a step. -/
def laneResult (c : Ctl) (a b : Rat) : Option XVal :=
  (after (step { s0 with sched := [.operator c a b] })).map (·.lane.result)

/-- AL-1, AL-2 and AL-12. -/
theorem test_add : laneResult 0b000 1023 1023 = some (.fin 2046) ∧ laneResult 0b100 1023 1 = some (.fin 1024) ∧
    laneResult 0b000 1 (1 / 2) = some (.fin (3 / 2)) := by decide +kernel
/-- AL-3. -/
theorem test_subAB : laneResult 0b001 0 1023 = some (.fin (-1023)) := by decide +kernel
/-- AL-4. -/
theorem test_subBA : laneResult 0b101 0 1023 = some (.fin 1023) := by decide +kernel
/-- AL-5 and AL-16. -/
theorem test_mul : laneResult 0b010 1023 1023 = some (.fin 1046529) ∧ laneResult 0b110 (-3) (-4) = some (.fin 12) := by
  decide +kernel
/-- AL-7, AL-9 and AL-23. -/
theorem test_divAB : laneResult 0b011 1 3 = some (.fin (1 / 3)) ∧ laneResult 0b011 0 7 = some (.fin 0) ∧
    laneResult 0b011 (-512) 0 = some .negInf := by decide +kernel
/-- AL-8, AL-10 and AL-11. -/
theorem test_divBA : laneResult 0b111 6 3 = some (.fin (1 / 2)) ∧ laneResult 0b111 0 7 = some .posInf ∧
    laneResult 0b111 0 0 = some (.fin 1) := by decide +kernel

/-- The bytes a byte form leaves, and the entries after them, stay scheduled in order (R98). -/
theorem test_step_leaves_the_rest :
    (after (step { s0 with sched := [.byte 0x01, .byte 0xFF, .byte 0x03, .byte 0x02, .label ⟨0x52, []⟩, .byte 0x51] })).map
      (fun t => (t.fw.k, t.sched)) = some (1, [.byte 0x02, .label ⟨0x52, []⟩, .byte 0x51]) := by decide +kernel

/-- A refused label refuses the step, and an empty schedule has no step (R261, R263). -/
theorem test_step_stops :
    step { s0 with sched := [.byte 0x53] } = .refused (.rejected .reservedOpcode) ∧
    step s0 = .fault (.noStep .scheduleEmpty) := ⟨rfl, rfl⟩

/-! ### Notation (R100, R101) -/

/-- The example of R100, an operand in hexadecimal with a comment, and a line that spells nothing. -/
theorem test_parse_line :
    parseLine "MTH.CREATE DIV.BA, CH1, CH2" = some [.op (.mthCreate 0b111 0 1)] ∧
    parseLine "  SMP.CONVERT 0x3FF ; last code" = some [.op (.smpConvert 1023)] ∧
    parseLine "SMP.CONVERT 1024" = none ∧ parseLine "; nothing" = some [] := by decide +kernel

/-- The pseudo-operations of program P1 and a repetition. -/
theorem test_parse_pseudo :
    parseLine "SMP.GROUP 100, 200, 300, 400" = some [.group ⟨100, 200, 300, 400⟩] ∧
    parseLine "DEC.DRAIN 8" = some [.drain 8] ∧ parseLine "DEC.INGEST ×5" = some [.times 5 .decIngest] := by decide +kernel

/-- The expansions of R101. -/
theorem test_expand :
    expand s0 (.group ⟨1, 2, 3, 4⟩) = [.smpConvert 1, .smpConvert 2, .smpConvert 3, .smpConvert 4, .smpEmit] ∧
    expand s0 .packet = [.decIngest, .decIngest, .decIngest, .decIngest, .decIngest, .decUnpack] ∧
    expand (withCh e0 [1, 2] [10] [(2, fresh 0 0 1)]) (.run 2) = [.mthBegin 2, .mthElem 2, .mthElem 2] := by decide +kernel

/-! ### The invariant, on states written out -/

/-- A check of the invariant that evaluates. -/
def invHolds (s : State) : Bool :=
  decide (s.cfg.wf) && decide (s.fw.k ≤ 4) && decide (∀ j : Fin 4, s.fw.acc[j].isSome = decide (j.val < s.fw.k)) &&
  (s.linkUp || s.wire.isEmpty) && decide (s.dec.asm.length ≤ 5) && decide (s.dec.queue.length ≤ s.cfg.hostQueueDepth) &&
  decide (∀ p : Fin 2, s.ch.phys[p].length ≤ s.cfg.sampleBufferDepth) && decide (derivedCanonical s.ch.derived) &&
  decide (s.ch.derived.length ≤ 3) && decide (2 ≤ s.ch.nextId) &&
  s.ch.derived.all fun e =>
    decide (2 ≤ e.1) && decide (e.1 < s.ch.nextId) && decide (e.2.level = 1) && decide (e.2.a < 2) && decide (e.2.b < 2) &&
    decide (e.2.buf.length ≤ s.cfg.sampleBufferDepth) &&
    (match e.2.work with
      | none => true
      | some (i, acc) => decide (acc.length = i) && decide (i ≤ s.cfg.sampleBufferDepth) && !s.cfg.recomputeAtomic)

theorem inv_of_check {s : State} (h : invHolds s = true) : s.Inv := by
  simp only [invHolds, Bool.and_eq_true, decide_eq_true_eq, List.all_eq_true] at h
  obtain ⟨⟨⟨⟨⟨⟨⟨⟨⟨⟨h1, h2⟩, h3⟩, h4⟩, h5⟩, h6⟩, h7⟩, h8⟩, h9⟩, h10⟩, h11⟩ := h
  refine ⟨h1, ⟨h2, h3⟩, fun hl => ?_, h5, h6, h7, h8, h9, h10, fun e he => ?_⟩
  · simpa [hl] using h4
  · obtain ⟨⟨⟨⟨⟨⟨g1, g2⟩, g3⟩, g4⟩, g5⟩, g6⟩, g7⟩ := h11 e he
    refine ⟨g1, g2, g3, g4, g5, g6, fun i acc hw => ?_⟩
    rw [hw] at g7
    simpa [and_assoc] using g7

/-- Three live channels, the limit. -/
def three : State := withCh s0 [1, 2, 3] [10, 20] [(2, fresh 0 0 1), (3, fresh 0b011 1 1), (4, fresh 0 1 0)]

/-- Two live channels. -/
def two : State := withCh s0 [1, 2, 3] [10, 20] [(2, fresh 0 0 1), (3, fresh 0b011 1 1)]

/-- The same under the non-atomic recompute. -/
def twoE : State := withCh e0 [1, 2, 3] [10, 20] [(2, fresh 0 0 1), (3, fresh 0b011 1 1)]

/-- A full window and one queued code, with room for four more. -/
def window : State := withDec cfg8 ⟨[1, 2, 3, 4, 5], 0, [9]⟩ [7]

theorem inv_s0 : s0.Inv := inv_of_check (by decide +kernel)
theorem inv_full : full.Inv := inv_of_check (by decide +kernel)
theorem inv_three : three.Inv := inv_of_check (by decide +kernel)
theorem inv_inFlight1 : inFlight1.Inv := inv_of_check (by decide +kernel)
theorem inv_window : window.Inv := inv_of_check (by decide +kernel)
theorem inv_packet : { s0 with wire := [1, 2, 3, 4, 5] }.Inv := inv_of_check (by decide +kernel)

/-! ### Witnesses: states and operands that meet the hypotheses of each obligation -/

theorem witness_DecodeOfEncodeIsTheInstruction :
    (Instr.mthCreate 7 255 0).wf = true ∧ (Instr.mthElem 255).wf = true ∧ (Instr.divBA).wf = true := by decide

theorem witness_DecodedBytesAreTheEncoding : ∃ i rest, decode [0x31, 0x07, 0xFF, 0x00, 0x60] = .ok (i, rest) :=
  have h : decode [0x31, 0x07, 0xFF, 0x00, 0x60] = .ok (.mthCreate 7 255 0, [0x60]) := by decide +kernel
  ⟨_, _, h⟩

/-- Both ends of every reserved range are refused, and so is the first opcode of the last one; the opcodes beside them are not. -/
theorem witness_ReservedOpcodesAreRefused :
    (∀ op ∈ ([0x00, 0x03, 0x10, 0x14, 0x20, 0x26, 0x30, 0x36, 0x50, 0x53, 0xFF] : List Byte),
      decodeLabel ⟨op, []⟩ = .error .reservedOpcode) ∧
    (∀ op ∈ ([0x01, 0x02, 0x11, 0x13, 0x21, 0x25, 0x31, 0x35, 0x51, 0x52] : List Byte),
      decodeLabel ⟨op, []⟩ ≠ .error .reservedOpcode) := by decide +kernel

/-- The ends of each argument's range, an operand id and an id to delete that name nothing, and physical ids, which are no case of
the last clause. -/
theorem witness_ArgumentRanges :
    1023 ≤ 1023 ∧ 1023 < 1024 ∧ 7 ≤ 7 ∧ 7 < 8 ∧ s0.chanExists 2 = false ∧ s0.chanExists 0 = true ∧ s0.chanExists 1 = true ∧
    three.chanExists 4 = true ∧ three.chanExists 5 = false := by decide

theorem witness_ByteFormLengthsAndZeroBits :
    encode (.smpConvert 1023) = .bytes [0x01, 0xFF, 0x03] ∧ 4 ≤ (0x04 : Byte).toNat ∧ ¬ 4 ≤ (0x03 : Byte).toNat ∧
    8 ≤ (0x08 : Byte).toNat ∧ ¬ 8 ≤ (0x07 : Byte).toNat ∧
    labelLength 0x31 = some 4 ∧ ([0x31, 0x00, 0x00] : List Byte).length < 4 ∧
    labelLength 0x25 = some 3 ∧ ([0x25] : List Byte).length < 3 := by decide +kernel

theorem witness_PackAndUnpackAreInverse : pack ⟨100, 200, 300, 400⟩ = [0x64, 0x20, 0xC3, 0x12, 0x64] := by decide +kernel

theorem witness_WindowDecodesStreamBits :
    (([0x64, 0x20, 0xC3, 0x12, 0x64, 0x01, 0x08] : List Byte).drop 2).take 5 = [0xC3, 0x12, 0x64, 0x01, 0x08] := by decide

/-- Windows at every phase, the last of them the last the stream has. -/
theorem witness_MisalignedWindowMixesSamples :
    let es := ([⟨100, 200, 300, 400⟩, ⟨1, 2, 3, 4⟩] : List Quad).flatMap pack
    (es.drop 0).take 5 = [0x64, 0x20, 0xC3, 0x12, 0x64] ∧ (es.drop 1).take 5 = [0x20, 0xC3, 0x12, 0x64, 0x01] ∧
    (es.drop 2).take 5 = [0xC3, 0x12, 0x64, 0x01, 0x08] ∧ (es.drop 3).take 5 = [0x12, 0x64, 0x01, 0x08, 0x30] ∧
    (es.drop 4).take 5 = [0x64, 0x01, 0x08, 0x30, 0x00] ∧ (es.drop 5).take 5 = [0x01, 0x08, 0x30, 0x00, 0x01] := by
  decide +kernel

theorem witness_BoundedPushEvictsOldest :
    1 ≤ 1 ∧ ([] : List Rat).length < 1 ∧ ([7] : List Rat).length = 1 ∧ ([1, 2] : List Rat).length < 3 ∧
    ([1, 2, 3] : List Rat).length = 3 := by decide

theorem witness_ConvertStoresSample :
    s0.fw.k < 4 ∧ { s0 with fw := ⟨3, #v[some 1, some 2, some 3, none]⟩ }.fw.k < 4 ∧ ¬ full.fw.k < 4 := by decide

theorem witness_EmitTransmitsPacket :
    full.fw = ⟨4, #v[some 1, some 2, some 3, some 4]⟩ ∧ full.linkUp = true ∧ s0.fw.k ≠ 4 := by decide

theorem witness_FirmwareHasExactlyOneStep : s0.Inv ∧ full.Inv := ⟨inv_s0, inv_full⟩

theorem witness_FirmwareLabelsFollowTheLoop :
    let ops := expand s0 (.group ⟨1, 2, 3, 4⟩)
    s0.fw.k = 0 ∧ .rstFw ∉ ops ∧ (runOps ops s0).isSome = true ∧
    (ops.filter fun o => agentOf o = .firmware)[4]? = some .smpEmit ∧
    (ops.filter fun o => agentOf o = .firmware)[3]? = some (.smpConvert 4) := by decide +kernel

/-- One step of each kind the statement tells apart. -/
theorem witness_WireGrowsByPacketsAndShrinksAtItsHead :
    (after (exec .smpEmit full)).isSome = true ∧ (after (exec .lnkDrop { s0 with wire := [1] })).isSome = true ∧
    (after (exec .decIngest { s0 with wire := [1] })).isSome = true ∧ (after (exec .lnkDown s0)).isSome = true ∧
    (after (exec .rstHost s0)).isSome = true := by decide +kernel

theorem witness_DropLosesOldestByte : { s0 with wire := [1, 2] }.wire = 1 :: [2] ∧ s0.wire = [] := by decide

theorem witness_LinkLossKeepsHostState : s0.linkUp = true ∧ { s0 with linkUp := false }.linkUp = false := by decide

theorem witness_LinkReturnOnlySetsLink : { s0 with linkUp := false }.linkUp = false ∧ s0.linkUp = true := by decide

theorem witness_IngestMovesOldestByte :
    let s : State := { withAsm s0 [1, 2, 3, 4] with wire := [9] }
    (s.linkUp = true ∧ s.wire = 9 :: [] ∧ s.dec.asm.length < 5) ∧ { s with linkUp := false }.linkUp = false ∧
    s0.wire = [] ∧ 5 ≤ window.dec.asm.length := by decide

theorem witness_UnpackQueuesFourCodes :
    window.dec.asm = [1, 2, 3, 4, 5] ∧ detect window.cfg.desyncDetect (detectContext window) .plausible = true ∧
    s0.dec.asm.length ≠ 5 ∧ detect (.table .onlyImplausible []) (detectContext window) .plausible = false := by
  decide +kernel

/-- A queue with room for four, and a full one. -/
theorem witness_UnpackKeepsNewestCodes :
    (1 ≤ window.cfg.hostQueueDepth ∧ window.dec.queue.length ≤ window.cfg.hostQueueDepth ∧
      (after (exec .decUnpack window)).isSome = true) ∧
    let s := withDec { cfg8 with hostQueueDepth := 1 } ⟨[1, 2, 3, 4, 5], 0, [9]⟩ []
    1 ≤ s.cfg.hostQueueDepth ∧ s.dec.queue.length ≤ s.cfg.hostQueueDepth ∧ (after (exec .decUnpack s)).isSome = true := by
  decide +kernel

theorem witness_SlipDiscardsByteAndCounts :
    (window.dec.asm.length = 5 ∧ detect .any (detectContext window) .implausible = true) ∧ s0.dec.asm.length ≠ 5 ∧
    detect window.cfg.desyncDetect (detectContext window) .implausible = false := by decide +kernel

theorem witness_PushScalesIntoOwnerBuffer : window.dec.queue = 9 :: [] ∧ s0.dec.queue = [] := by decide

theorem witness_ReaderNeverWaitsForConsumers : window.dec.asm.length = 5 := by decide

/-- A step of each kind, for each clause. -/
theorem witness_OnlyFourOperationsMoveTheAlignmentMeasure :
    (after (exec .decIngest { s0 with wire := [1] })).isSome = true ∧
    (after (exec .lnkDrop { s0 with wire := [1] })).isSome = true ∧
    (after (exec .decSlip (withDec { cfg8 with desyncDetect := .any } ⟨[1, 2, 3, 4, 5], 0, []⟩ []))).isSome = true := by
  decide +kernel

/-- For each clause a state that meets the invariant, aligned, with the link up. -/
theorem witness_PipelineStepKeepsSamples :
    (s0.Inv ∧ s0.linkUp = true ∧ s0.misalignment = 0 ∧ (after (exec (.smpConvert 5) s0)).isSome = true) ∧
    (full.Inv ∧ full.linkUp = true ∧ full.misalignment = 0 ∧ (after (exec .smpEmit full)).isSome = true) ∧
    (let s : State := { s0 with wire := [1, 2, 3, 4, 5] }
     s.Inv ∧ s.linkUp = true ∧ s.misalignment = 0 ∧ (after (exec .decIngest s)).isSome = true) ∧
    (window.Inv ∧ window.linkUp = true ∧ window.misalignment = 0 ∧
      window.dec.queue.length + 4 ≤ window.cfg.hostQueueDepth ∧ (after (exec .decUnpack window)).isSome = true ∧
      window.ch.phys[window.cfg.owner].length < window.cfg.sampleBufferDepth ∧
      (after (exec .decPush window)).isSome = true) :=
  ⟨⟨inv_s0, by decide +kernel⟩, ⟨inv_full, by decide +kernel⟩, ⟨inv_packet, by decide +kernel⟩,
    ⟨inv_window, by decide +kernel⟩⟩

/-- One packet's way into the buffer, its first code pushed, and a conversion. -/
def delivery : List Instr := List.replicate 5 .decIngest ++ [.decUnpack, .decPush, .smpConvert 7]

/-- A packet in flight is ingested, unpacked and its first code pushed, while a conversion is made. -/
theorem witness_EndToEndDelivery :
    let s : State := { s0 with wire := [1, 2, 3, 4, 5] }
    let ops := delivery
    s.Inv ∧ s.linkUp = true ∧ s.dec.asm = [] ∧ s.dec.queue = [] ∧ s.alignedStart = true ∧
    (∀ i ∈ ops, i ≠ .lnkDrop ∧ i ≠ .lnkDown ∧ i ≠ .rstFw ∧ i ≠ .rstHost ∧ i ≠ .decSlip) ∧
    (∀ n u, runOps (ops.take n) s = some u →
      (ops[n]? = some .decUnpack → u.dec.queue.length + 4 ≤ s.cfg.hostQueueDepth) ∧
      (ops[n]? = some .decPush → u.ch.phys[s.cfg.owner].length < s.cfg.sampleBufferDepth)) ∧
    (runOps ops s).isSome = true := by
  refine ⟨inv_packet, by decide +kernel, by decide +kernel, by decide +kernel, by decide +kernel, by decide +kernel, ?_,
    by decide +kernel⟩
  intro n u hu
  constructor
  · intro h5
    have hn : n = 5 := by
      rcases n with _ | _ | _ | _ | _ | _ | _ | _ | n <;> simp_all [delivery, List.replicate]
    subst hn
    have : ((runOps (delivery.take 5)
        { s0 with wire := [1, 2, 3, 4, 5] }).map fun u => decide (u.dec.queue.length + 4 ≤ 8)) = some true := by decide +kernel
    rw [hu] at this
    exact of_decide_eq_true (Option.some.inj this)
  · intro h6
    have hn : n = 6 := by
      rcases n with _ | _ | _ | _ | _ | _ | _ | _ | n <;> simp_all [delivery, List.replicate]
    subst hn
    have : ((runOps (delivery.take 6)
        { s0 with wire := [1, 2, 3, 4, 5] }).map fun u => decide (u.ch.phys[(0 : Fin 2)].length < 8)) = some true := by
      decide +kernel
    rw [hu] at this
    exact of_decide_eq_true (Option.some.inj this)

theorem witness_DivisionIsTotal :
    ((0 : Rat) = 0 ∧ (0 : Rat) < 5 ∧ (-5 : Rat) < 0 ∧ (3 : Rat) ≠ 0) := by decide +kernel

/-- One channel as both operands, and one place left. -/
theorem witness_CreateGivesNextId : 1 < 2 ∧ two.ch.derived.length < 3 := by decide

theorem witness_CreateRejectionsInOrder :
    three.Inv ∧ three.chanExists 5 = false ∧
    (three.chanExists 4 = true ∧ three.chanExists 1 = true ∧ 2 ≤ 4) ∧ 1 < 2 ∧ three.ch.derived.length = 3 :=
  ⟨inv_three, by decide⟩

theorem witness_DeleteRemovesOnlyThatChannel :
    three.desc 3 = some (fresh 0b011 1 1) ∧ (fresh 0b011 1 1).work = none ∧ three.desc 5 = none ∧ three.Inv ∧ 1 < 2 ∧
    inFlight1.desc 2 = some ⟨0, 0, 1, 1, [], some (1, [.fin 11])⟩ := by
  refine ⟨by decide +kernel, rfl, by decide +kernel, inv_three, by decide, by decide +kernel⟩

theorem witness_RecomputeIsPointwise :
    (two.cfg.recomputeAtomic = true ∧ two.desc 2 = some (fresh 0 0 1) ∧ two.physBuf 0 = some [1, 2, 3] ∧
      two.physBuf 1 = some [10, 20] ∧ ([1, 2, 3] : List Rat)[1]? = some 2 ∧ ([10, 20] : List Rat)[1]? = some 20) ∧
    twoE.cfg.recomputeAtomic = false ∧ two.desc 9 = none := by decide +kernel

theorem witness_SameChannelResults :
    two.cfg.recomputeAtomic = true ∧ two.desc 3 = some (fresh 0b011 1 1) ∧ (fresh 0b011 1 1).a = (fresh 0b011 1 1).b ∧
    two.physBuf 1 = some [10, 20] := by decide +kernel

theorem witness_BeginStartsRecompute :
    (twoE.cfg.recomputeAtomic = false ∧ twoE.desc 2 = some (fresh 0 0 1) ∧ (fresh 0 0 1).work = none) ∧
    two.cfg.recomputeAtomic = true ∧ twoE.desc 9 = none ∧
    inFlight1.desc 2 = some ⟨0, 0, 1, 1, [], some (1, [.fin 11])⟩ := by decide +kernel

/-- Below the overlap, at its end, and the three holds. -/
theorem witness_ElementStepComputesOrFinishes :
    let d : Descriptor := ⟨0, 0, 1, 1, [], some (2, [.fin 11, .fin 32])⟩
    let s := withCh e0 [1, 2] [20, 30] [(2, d)]
    (inFlight1.cfg.recomputeAtomic = false ∧ inFlight1.desc 2 = some ⟨0, 0, 1, 1, [], some (1, [.fin 11])⟩ ∧
      inFlight1.physBuf 0 = some [1, 2] ∧ inFlight1.physBuf 1 = some [20, 30] ∧ ([1, 2] : List Rat)[1]? = some 2 ∧
      ([20, 30] : List Rat)[1]? = some 30) ∧
    (s.desc 2 = some d ∧ s.physBuf 0 = some [1, 2] ∧ s.physBuf 1 = some [20, 30] ∧
      min ([1, 2] : List Rat).length ([20, 30] : List Rat).length ≤ 2) ∧
    two.cfg.recomputeAtomic = true ∧ twoE.desc 9 = none ∧ (fresh 0 0 1).work = none := by decide +kernel

theorem witness_UninterruptedElementsEqualAtomic :
    twoE.cfg.recomputeAtomic = false ∧ twoE.desc 2 = some (fresh 0 0 1) ∧ (fresh 0 0 1).work = none ∧
    twoE.physBuf 0 = some [1, 2, 3] ∧ twoE.physBuf 1 = some [10, 20] := by decide +kernel

/-- A recompute that stays in flight over one element step. -/
theorem witness_ElementStepsAreBounded :
    inFlight1.Inv ∧ ∀ n ≤ [Instr.mthElem 2].length, ∃ u d w,
      runOps ([Instr.mthElem 2].take n) inFlight1 = some u ∧ u.desc 2 = some d ∧ d.work = some w := by
  refine ⟨inv_inFlight1, fun n hn => ?_⟩
  have hn' : n = 0 ∨ n = 1 := by simp at hn; omega
  rcases hn' with rfl | rfl
  · exact ⟨inFlight1, ⟨0, 0, 1, 1, [], some (1, [.fin 11])⟩, _, rfl, by decide +kernel, rfl⟩
  · exact ⟨withCh e0 [1, 2] [20, 30] [(2, ⟨0, 0, 1, 1, [], some (2, [.fin 11, .fin 32])⟩)],
      ⟨0, 0, 1, 1, [], some (2, [.fin 11, .fin 32])⟩, _, by decide +kernel, by decide +kernel, rfl⟩

/-- A rejection, a status of success and the report of a link loss. -/
theorem witness_RejectionLeavesStateUnchanged :
    s0.reply = none ∧ (after (exec (.mthDelete 0) s0)).map (·.reply) = some (some .invalidChannel) ∧
    Status.invalidChannel.isRejection = true ∧ (Status.ok none).kind = .status ∧
    (after (exec (.mthDelete 3) three)).map (·.reply) = some (some (.ok none)) ∧
    (after (exec .lnkDown s0)).map (·.reply) = some (some .linkLost) := by decide +kernel

theorem witness_NoOperationFaults : three.Inv ∧ inFlight1.Inv := ⟨inv_three, inv_inFlight1⟩

/-- A reserved opcode with a label after it, and a byte form cut short by a label, each at the front and after one step. -/
theorem witness_StepRefusesExactlyRefusedEntries :
    frontRefused [.byte 0x53, .label ⟨0x51, []⟩] .reservedOpcode ∧
    frontRefused [.byte 0x01, .byte 0x90, .label ⟨0x51, []⟩] .truncated ∧
    frontRefused [.label ⟨0x01, [1024]⟩, .byte 0x51] .sampleOutOfRange ∧
    (∃ t, Host.Core.run core 1 { s0 with sched := [.byte 0x51, .byte 0x53] } = .next t ∧
      frontRefused t.sched .reservedOpcode) ∧ 1 < 2 :=
  ⟨.inr ⟨0x53, [], [.label ⟨0x51, []⟩], rfl, nofun, rfl⟩,
    .inr ⟨0x01, [0x90], [.label ⟨0x51, []⟩], rfl, nofun, rfl⟩,
    .inl ⟨_, _, rfl, rfl⟩,
    ⟨_, rfl, .inr ⟨0x53, [], [], rfl, nofun, rfl⟩⟩, by decide⟩

/-- A step that converts, from a state that meets the invariant. -/
theorem witness_StepKeepsInvariant :
    { s0 with sched := [.byte 0x01, .byte 0xFF, .byte 0x03] }.Inv ∧
    (after (step { s0 with sched := [.byte 0x01, .byte 0xFF, .byte 0x03] })).isSome = true :=
  ⟨inv_of_check (by decide +kernel), by decide +kernel⟩

theorem witness_AccessTableFrames :
    (after (exec .decPush window)).isSome = true ∧ (after (exec (.mthCreate 0 0 1) two)).isSome = true ∧
    (after (exec .add s0)).isSome = true := by decide +kernel

theorem witness_DesyncCounterCountsSlips :
    (after (exec .decSlip (withDec { cfg8 with desyncDetect := .any } ⟨[1, 2, 3, 4, 5], 3, []⟩ []))).map
      (·.dec.desyncCount) = some 4 ∧ (after (exec .rstHost s0)).isSome = true ∧ (after (exec .decPush window)).isSome = true := by
  decide +kernel

/-- Two states that differ in the host and agree in the firmware. -/
theorem witness_FirmwareIsIsolated :
    s0.fw = two.fw ∧ (after (exec (.smpConvert 5) s0)).isSome = true ∧ (after (exec (.smpConvert 5) two)).isSome = true ∧
    s0.ch ≠ two.ch := by decide +kernel

theorem witness_ChannelIdsAreNeverReused :
    (Instr.mthCreate 0 0 1 ≠ .rstHost) ∧ two.desc 5 = none ∧
    (after (exec (.mthCreate 0 0 1) two)).map (fun t => (t.desc 5).isSome) = some true := by decide +kernel

theorem witness_LiveDescriptorsKeepTheirOperands :
    three.Inv ∧ three.desc 2 = some (fresh 0 0 1) ∧
    (after (exec (.mthRecompute 2) three)).map (fun t => t.desc 2) = some (some ⟨0, 0, 1, 1, [.fin 11, .fin 22], none⟩) :=
  ⟨inv_three, by decide +kernel⟩

/-- A byte form with a second one and then a label after it, a label with an id of more than a byte, a refused label, a byte form
refused for a bit and one cut short by the label after it. -/
theorem witness_StepRunsScheduledInstruction :
    (decode [0x32, 0x02, 0x51] = .ok (.mthDelete 2, [0x51]) ∧
      ([.byte 0x32, .byte 0x02, .byte 0x51, .label ⟨0x52, []⟩] : List Slot) =
        ([0x32, 0x02, 0x51] : List Byte).map .byte ++ [.label ⟨0x52, []⟩]) ∧
    (∀ c, ([.label ⟨0x52, []⟩] : List Slot).head? ≠ some (.byte c)) ∧
    decodeLabel ⟨0x32, [300]⟩ = .ok (.mthDelete 300) ∧ decodeLabel ⟨0x01, [1024]⟩ = .error .sampleOutOfRange ∧
    decode (0x31 :: [0x08, 0x00, 0x01]) = .error .ctlOutOfRange ∧ decode (0x01 :: [0x90]) = .error .truncated ∧
    s0.sched = [] := by decide +kernel

end Sys2Proof.Tests
end

section
/-!
One step of the machine, said through what the decoder reads at the front of the schedule (R16, R261).
-/

namespace Sys2Proof.Machine

open Sys2Proof

/-! ### What taking an entry leaves of the state -/

theorem takeSlot_of_byte {s : State} {b : Byte} {es : List Slot} (h : s.sched = .byte b :: es) (rest : List Slot) :
    s.takeSlot rest = { s with sched := rest, reply := none } := by
  simp [State.takeSlot, h]

theorem takeSlot_of_label {s : State} {l : Label} {es : List Slot} (h : s.sched = .label l :: es) (rest : List Slot) :
    s.takeSlot rest = { s with sched := rest, reply := none } := by
  simp [State.takeSlot, h]

/-- Taking an operator word latches its operand pair (log entry 7). -/
theorem takeSlot_of_operator {s : State} {c : Ctl} {a b : Rat} {es : List Slot} (h : s.sched = .operator c a b :: es)
    (rest : List Slot) :
    s.takeSlot rest = { s with sched := rest, reply := none, lane := { s.lane with a := a, b := b } } := by
  simp [State.takeSlot, h]

/-! ### A step by what the decoder reads -/

theorem step_of_decodeSlots_ok {s : State} {i : Instr} {rest : List Slot}
    (h : decodeSlots s.sched = some (.ok (i, rest))) : step s = exec i (s.takeSlot rest) := by
  simp [step, fetch, h]

theorem step_of_decodeSlots_error {s : State} {r : Reject} (h : decodeSlots s.sched = some (.error r)) :
    step s = .refused (.rejected r) := by
  simp [step, fetch, h]

theorem step_of_sched_nil {s : State} (h : s.sched = []) : step s = .fault (.noStep .scheduleEmpty) := by
  simp [step, fetch, decodeSlots, hold, h]

/-! ### The front of the schedule -/

/-- No byte form is empty (R98). -/
theorem decode_nil : decode [] = .error .truncated := rfl

theorem decodeSlots_label_ok {l : Label} {i : Instr} {more : List Slot} (h : decodeLabel l = .ok i) :
    decodeSlots (.label l :: more) = some (.ok (i, more)) := by
  simp [decodeSlots, h]

theorem decodeSlots_operator (c : Ctl) (a b : Rat) (more : List Slot) :
    decodeSlots (.operator c a b :: more) = some (.ok (decodeCtl c, more)) := rfl

/-! ### A step by the entry at the front -/

theorem step_of_bytes_ok {s : State} {bs rest : List Byte} {i : Instr} {more : List Slot}
    (hs : s.sched = bs.map .byte ++ more) (hm : ∀ c, more.head? ≠ some (.byte c)) (hd : decode bs = .ok (i, rest)) :
    step s = exec i { s with sched := rest.map .byte ++ more, reply := none } := by
  cases bs with
  | nil => rw [decode_nil] at hd; cases hd
  | cons b bs =>
    rw [step_of_decodeSlots_ok (hs ▸ decodeSlots_bytes_ok hm hd), takeSlot_of_byte hs]

theorem step_of_label_ok {s : State} {l : Label} {i : Instr} {more : List Slot} (hs : s.sched = .label l :: more)
    (hd : decodeLabel l = .ok i) : step s = exec i { s with sched := more, reply := none } := by
  rw [step_of_decodeSlots_ok (hs ▸ decodeSlots_label_ok hd), takeSlot_of_label hs]

theorem step_of_operator {s : State} {c : Ctl} {a b : Rat} {more : List Slot} (hs : s.sched = .operator c a b :: more) :
    step s =
      exec (decodeCtl c) { s with sched := more, reply := none, lane := { s.lane with a := a, b := b } } := by
  rw [step_of_decodeSlots_ok (hs ▸ decodeSlots_operator c a b more), takeSlot_of_operator hs]

/-- A refused front refuses the step, whatever entries come after it (R261). -/
theorem step_of_frontRefused {s : State} {r : Reject} (h : frontRefused s.sched r) : step s = .refused (.rejected r) :=
  step_of_decodeSlots_error ((decodeSlots_error_iff s.sched r).mpr h)

/-- Settles O59: each kind of entry at the front of the schedule by the lemma about that entry. -/
theorem stepRunsScheduledInstruction : Obligations.StepRunsScheduledInstruction := by
  intro s more
  refine ⟨fun bs i rest => step_of_bytes_ok, fun l i => step_of_label_ok, fun l r hs hd => ?refusedLabel,
    fun b bs r hs hm hd => ?refusedBytes, fun c a b => step_of_operator, step_of_sched_nil⟩
  case refusedLabel => exact step_of_frontRefused (.inl ⟨l, more, hs, hd⟩)
  case refusedBytes => exact step_of_frontRefused (.inr ⟨b, bs, more, hs, hm, hd⟩)

end Sys2Proof.Machine
end

section
/-!
The bounded push (R40).
-/

namespace Sys2Proof.Machine

/-- A full list loses its oldest element to the one pushed (R40). -/
theorem rbPush_of_full {α : Type} {xs : List α} {cap : Nat} (x : α) (h : xs.length = cap) :
    rbPush xs x cap = xs.tail ++ [x] := by
  simp [rbPush, h]

/-- A bounded push drops elements at the front only. -/
theorem rbPush_suffix {α : Type} (xs : List α) (x : α) {cap : Nat} (hcap : 1 ≤ cap) :
    rbPush xs x cap <:+ xs ++ [x] :=
  rbPush_eq_drop xs x cap hcap ▸ List.drop_suffix _ _

/-- Settles O12, by the laws of the bounded push. -/
theorem boundedPushEvictsOldest : Obligations.BoundedPushEvictsOldest := by
  intro xs x cap hcap
  obtain ⟨evicted, hsuffix⟩ := rbPush_suffix xs x hcap
  exact ⟨rbPush_of_room x, rbPush_of_full x, rbPush_length xs x cap hcap, rbPush_getLast xs x cap,
    evicted, hsuffix.symm⟩

end Sys2Proof.Machine
end

section
/-!
The frames of the operations (R39), and what follows from them for the slip counter (R28), the firmware (R24), the channel ids
(R36) and the configuration of a live channel (R33).
-/

namespace Sys2Proof.Machine

/-! ### Frames -/

@[simp] theorem desc_setFw (s : State) (fw : Firmware) (id : Nat) : (s.setFw fw).desc id = s.desc id := rfl
@[simp] theorem desc_setWire (s : State) (w : List Byte) (id : Nat) : (s.setWire w).desc id = s.desc id := rfl
@[simp] theorem desc_setLink (s : State) (up : Bool) (id : Nat) : (s.setLink up).desc id = s.desc id := rfl
@[simp] theorem desc_setAsm (s : State) (bs : List Byte) (id : Nat) : (s.setAsm bs).desc id = s.desc id := rfl
@[simp] theorem desc_setQueue (s : State) (q : List Code) (id : Nat) : (s.setQueue q).desc id = s.desc id := rfl
@[simp] theorem desc_countDesync (s : State) (id : Nat) : s.countDesync.desc id = s.desc id := rfl
@[simp] theorem desc_pushPhys (s : State) (p : Fin 2) (x : Rat) (id : Nat) :
    (s.pushPhys p x).desc id = s.desc id := rfl
@[simp] theorem desc_takeId (s : State) (id : Nat) : s.takeId.desc id = s.desc id := rfl
@[simp] theorem desc_answer (s : State) (st : Status) (id : Nat) : (s.answer st).desc id = s.desc id := rfl
@[simp] theorem desc_setResult (s : State) (x : XVal) (id : Nat) : (s.setResult x).desc id = s.desc id := rfl

/-- Handing a packet to the link writes the wire at most (R122). -/
theorem transmit_eq_setWire (bytes : List Byte) (s : State) :
    transmit bytes s = s.setWire (if s.linkUp then s.wire ++ bytes else s.wire) := by
  unfold transmit
  split <;> rfl

theorem otherChannel_ne_owner (cfg : Config) : otherChannel cfg ≠ cfg.owner := by
  unfold otherChannel
  generalize cfg.owner = p
  revert p
  decide

/-! ### What a recompute makes of a descriptor -/

/-- What the three operations of a recompute make of a live channel's descriptor `d` (R214, R216, R217). -/
inductive Recomputed (s : State) (d : Descriptor) : Descriptor → Prop where
  | whole {bufA bufB : List Rat} (ho : operandBuffers s d = some (bufA, bufB)) :
      Recomputed s d { d with buf := pointwise d.ctl bufA bufB }
  | started (hm : s.cfg.recomputeAtomic = false) : Recomputed s d { d with work := some (0, []) }
  | advanced {i : Nat} {acc : List XVal} {bufA bufB : List Rat} {x y : Rat} (hw : d.work = some (i, acc))
      (ho : operandBuffers s d = some (bufA, bufB)) (hx : bufA[i]? = some x) :
      Recomputed s d { d with work := some (i + 1, acc ++ [applyCtl d.ctl x y]) }
  | finished {i : Nat} {acc : List XVal} (hw : d.work = some (i, acc)) :
      Recomputed s d { d with buf := acc, work := none }

/-- An operation of a recompute rewrites the descriptor of the channel it names, which is live. -/
theorem exec_recompute_next {i : Instr} {id : Nat} {s t : State}
    (hi : i = .mthRecompute id ∨ i = .mthBegin id ∨ i = .mthElem id) (h : exec i s = .next t) :
    ∃ d e, s.desc id = some d ∧ Recomputed s d e ∧ t = s.setDesc id e := by
  obtain rfl | rfl | rfl := hi
  · obtain ⟨_, d, bufA, bufB, hd, ho, ht⟩ := execMthRecompute_next h
    exact ⟨d, _, hd, .whole ho, ht⟩
  · obtain ⟨hm, d, hd, _, ht⟩ := execMthBegin_next h
    exact ⟨d, _, hd, .started hm, ht⟩
  · obtain ⟨_, d, j, acc, bufA, bufB, hd, hw, ho, ⟨x, y, hx, _, ht⟩ | ⟨_, ht⟩⟩ := execMthElem_next h
    · exact ⟨d, _, hd, .advanced hw ho hx, ht⟩
    · exact ⟨d, _, hd, .finished hw, ht⟩

/-- A recompute keeps the operator, the operands and the level (R33). -/
theorem Recomputed.keeps_operands {s : State} {d e : Descriptor} (h : Recomputed s d e) :
    e.ctl = d.ctl ∧ e.a = d.a ∧ e.b = d.b ∧ e.level = d.level := by
  cases h <;> exact ⟨rfl, rfl, rfl, rfl⟩

/-! ### The access table -/

/-- Settles O54: each operation by its inversion lemma, which gives its next state as updates of the fields it writes. -/
theorem accessTableFrames : Obligations.AccessTableFrames := by
  intro i s t h
  cases i with
  | smpConvert v => obtain ⟨_, rfl⟩ := execSmpConvert_next h; simp
  | smpEmit => obtain ⟨_, q, _, rfl⟩ := execSmpEmit_next h; simp [transmit_eq_setWire]
  | lnkDrop => obtain ⟨b, rest, _, rfl⟩ := execLnkDrop_next h; simp
  | lnkDown => obtain ⟨_, rfl⟩ := execLnkDown_next h; simp
  | lnkUp => obtain ⟨_, rfl⟩ := execLnkUp_next h; simp
  | decIngest => obtain ⟨_, _, b, rest, _, rfl⟩ := execDecIngest_next h; simp
  | decUnpack => obtain ⟨b0, b1, b2, b3, b4, _, _, rfl⟩ := execDecUnpack_next h; simp
  | decSlip => obtain ⟨_, _, rfl⟩ := execDecSlip_next h; simp
  | decPush =>
    obtain ⟨c, rest, _, rfl⟩ := execDecPush_next h
    have hother := fun p => pushPhys_phys_other (s.setQueue rest) (p := s.cfg.owner) (p' := p) (scale s.cfg c)
    simpa using hother
  | envFeed v =>
    obtain rfl := execEnvFeed_next h
    have howner := pushPhys_phys_other s (scale s.cfg v) (otherChannel_ne_owner s.cfg).symm
    simpa using howner
  | mthCreate ctl a b =>
    obtain ⟨st, _, rfl⟩ | ⟨_, _, _, _, _, rfl⟩ := execMthCreate_next h
    · simp
    · have hdesc := fun id => desc_setDesc_other s (id := s.ch.nextId) (id' := id) ⟨ctl, a, b, 1, [], none⟩
      simpa using hdesc
  | mthDelete id =>
    obtain ⟨_, rfl⟩ | ⟨d, _, _, rfl⟩ := execMthDelete_next h
    · simp
    · have hdesc := fun id' (hne : id ≠ id') => desc_dropDesc_other s hne.symm
      simpa using hdesc
  | mthRecompute id | mthBegin id | mthElem id =>
    obtain ⟨d, e, _, _, rfl⟩ := exec_recompute_next (id := id) (by simp) h
    have hdesc := fun id' (hne : id ≠ id') => desc_setDesc_other s e hne.symm
    simpa using hdesc
  | rstFw => obtain rfl := execRstFw_next h; simp
  | rstHost => obtain rfl := execRstHost_next h; simp
  | add | subAB | subBA | mul | divAB | divBA =>
    obtain ⟨x, rfl⟩ := exec_operator_next rfl h; simp [toCtl]

/-- An operation other than the firmware's and its reset leaves the firmware as it was (R39). -/
theorem exec_keeps_fw {i : Instr} {s t : State} (h : exec i s = .next t) (hconvert : ∀ v, i ≠ .smpConvert v)
    (hemit : i ≠ .smpEmit) (hrst : i ≠ .rstFw) : t.fw = s.fw := by
  obtain ⟨hfw, -⟩ := accessTableFrames i s t h
  exact hfw hconvert hemit hrst

/-- Only a slip and a host restart write the slip counter (R39). -/
theorem exec_keeps_desyncCount {i : Instr} {s t : State} (h : exec i s = .next t) (hslip : i ≠ .decSlip)
    (hrst : i ≠ .rstHost) : t.dec.desyncCount = s.dec.desyncCount := by
  obtain ⟨-, -, -, -, hcount, -⟩ := accessTableFrames i s t h
  exact hcount hslip hrst

/-- Only a creation and a host restart write the next id (R39). -/
theorem exec_keeps_nextId {i : Instr} {s t : State} (h : exec i s = .next t)
    (hcreate : ∀ ctl a b, i ≠ .mthCreate ctl a b) (hrst : i ≠ .rstHost) : t.ch.nextId = s.ch.nextId := by
  obtain ⟨-, -, -, -, -, -, -, -, -, hnext, -⟩ := accessTableFrames i s t h
  exact hnext hcreate hrst

/-- Settles O55: a slip and a host restart by their inversion lemmas, any other operation by its frame. -/
theorem desyncCounterCountsSlips : Obligations.DesyncCounterCountsSlips := by
  intro i s t h
  by_cases hslip : i = .decSlip
  · subst hslip
    obtain ⟨_, _, rfl⟩ := execDecSlip_next h
    simp
  by_cases hrst : i = .rstHost
  · subst hrst
    obtain rfl := execRstHost_next h
    simp
  rw [if_neg hslip, if_neg hrst, exec_keeps_desyncCount h hslip hrst]

/-- Settles O56: what the firmware's operations and its reset write is read off the firmware's state alone. -/
theorem firmwareIsIsolated : Obligations.FirmwareIsIsolated := by
  intro i s s' t t' hfw h h'
  cases i with
  | smpConvert v =>
    obtain ⟨_, rfl⟩ := execSmpConvert_next h
    obtain ⟨_, rfl⟩ := execSmpConvert_next h'
    simp [hfw]
  | smpEmit =>
    obtain ⟨_, _, _, rfl⟩ := execSmpEmit_next h
    obtain ⟨_, _, _, rfl⟩ := execSmpEmit_next h'
    simp
  | rstFw =>
    obtain rfl := execRstFw_next h
    obtain rfl := execRstFw_next h'
    simp
  | _ =>
    have ht := exec_keeps_fw h nofun nofun nofun
    have ht' := exec_keeps_fw h' nofun nofun nofun
    rw [ht, ht', hfw]

/-! ### What a step makes of a descriptor -/

/-- A live channel's id is a derived id given out before, and its descriptor is well-formed (R30, R36). -/
theorem State.Inv.of_desc {s : State} (hinv : s.Inv) {id : Nat} {d : Descriptor} (hd : s.desc id = some d) :
    2 ≤ id ∧ id < s.ch.nextId ∧ d.wf s.cfg := by
  obtain ⟨_, _, _, _, _, _, _, _, _, hall⟩ := hinv
  exact hall (id, d) (findDesc_mem hd)

/-- Whatever an operation does, a channel's descriptor is kept, rewritten by a recompute or removed, or the channel is new
and has taken the next id (R32, R36). -/
theorem exec_desc_cases {i : Instr} {s t : State} (h : exec i s = .next t) (id : Nat) :
    t.desc id = s.desc id ∨
    (∃ d e, s.desc id = some d ∧ Recomputed s d e ∧ t.desc id = some e) ∨
    t.desc id = none ∨
    (id = s.ch.nextId ∧ t.ch.nextId = id + 1) := by
  obtain ⟨-, -, -, -, -, -, -, -, hframe, -⟩ := accessTableFrames i s t h
  cases i with
  | mthCreate ctl a b =>
    by_cases hid : id = s.ch.nextId
    · obtain ⟨st, _, rfl⟩ | ⟨_, _, _, _, _, rfl⟩ := execMthCreate_next h
      · exact .inl rfl
      · exact .inr (.inr (.inr ⟨hid, by simp [hid]⟩))
    · exact .inl (hframe id (fun _ _ _ _ => hid) nofun nofun nofun nofun nofun)
  | mthDelete id' =>
    by_cases hid : id' = id
    · subst hid
      obtain ⟨_, rfl⟩ | ⟨d, _, _, rfl⟩ := execMthDelete_next h
      · exact .inl rfl
      · exact .inr (.inr (.inl (desc_dropDesc_self s id')))
    · exact .inl (hframe id nofun (by simpa using hid) nofun nofun nofun nofun)
  | mthRecompute id' | mthBegin id' | mthElem id' =>
    by_cases hid : id' = id
    · subst hid
      obtain ⟨d, e, hd, hde, rfl⟩ := exec_recompute_next (id := id') (by simp) h
      exact .inr (.inl ⟨d, e, hd, hde, desc_setDesc_self s id' e⟩)
    · exact .inl (hframe id nofun nofun (by simp [hid]) (by simp [hid]) (by simp [hid]) nofun)
  | rstHost => obtain rfl := execRstHost_next h; exact .inr (.inr (.inl rfl))
  | _ => exact .inl (hframe id nofun nofun nofun nofun nofun nofun)

/-- While the host runs the next id never falls (R36). -/
theorem exec_nextId_le {i : Instr} {s t : State} (hrst : i ≠ .rstHost) (h : exec i s = .next t) :
    s.ch.nextId ≤ t.ch.nextId := by
  cases i with
  | mthCreate ctl a b => obtain ⟨st, _, rfl⟩ | ⟨_, _, _, _, _, rfl⟩ := execMthCreate_next h <;> simp
  | rstHost => exact absurd rfl hrst
  | _ => exact (exec_keeps_nextId h nofun nofun).ge

/-- Settles O57: of the four things a step can make of a descriptor only a creation makes a dead channel live. -/
theorem channelIdsAreNeverReused : Obligations.ChannelIdsAreNeverReused := by
  intro i s t hrst h
  refine ⟨exec_nextId_le hrst h, fun id hdead hlive => ?_⟩
  obtain hkept | ⟨d, e, hd, _⟩ | hgone | hnew := exec_desc_cases h id
  · simp [hkept, hdead] at hlive
  · simp [hdead] at hd
  · simp [hgone] at hlive
  · exact hnew

/-- Settles O58: a live channel that stays live is kept or recomputed, its id being below the next one. -/
theorem liveDescriptorsKeepTheirOperands : Obligations.LiveDescriptorsKeepTheirOperands := by
  intro i s t id d e hinv h hd he
  obtain hkept | ⟨d', e', hd', hde, he'⟩ | hgone | ⟨hnew, _⟩ := exec_desc_cases h id
  · obtain rfl : d = e := by simpa [hkept, hd] using he
    exact ⟨rfl, rfl, rfl, rfl⟩
  · obtain rfl : d = d' := by simpa [hd] using hd'
    obtain rfl : e = e' := by simpa [he] using he'
    exact hde.keeps_operands
  · simp [hgone] at he
  · obtain ⟨_, hlt, _⟩ := hinv.of_desc hd
    exact absurd hnew hlt.ne

end Sys2Proof.Machine
end

section
/-!
The invariant of the block (R21 to R36, R61, R220): one rule per state update, and from these that every step keeps it.
-/

namespace Sys2Proof.Machine

/-! ### The parts of the invariant -/

theorem Firmware.reset_wf : Firmware.reset.wf :=
  ⟨by decide, by decide⟩

/-- Writing the slot at the loop position and advancing keeps the shape of the group (R21, R22). -/
theorem Firmware.wf.convert {fw : Firmware} (h : fw.wf) (v : Code) (hk : fw.k < 4) :
    Firmware.wf ⟨fw.k + 1, fw.acc.set fw.k (some v) hk⟩ := by
  obtain ⟨_, hslots⟩ := h
  refine ⟨Nat.succ_le_of_lt hk, fun j => ?_⟩
  by_cases hj : fw.k = j.val
  · simp [hj]
  · have hslot : fw.acc[j.val].isSome = decide (j.val < fw.k) := hslots j
    have hlt : j.val < fw.k + 1 ↔ j.val < fw.k := by omega
    simp [hj, hslot, hlt]

/-- A new channel's descriptor over physical operands (R211). -/
theorem Descriptor.wf_new (cfg : Config) (ctl : Ctl) {a b : Nat} (ha : a < 2) (hb : b < 2) :
    Descriptor.wf cfg ⟨ctl, a, b, 1, [], none⟩ :=
  ⟨rfl, ha, hb, Nat.zero_le _, nofun⟩

theorem operandBuffers_eq_some {s : State} {d : Descriptor} {bufA bufB : List Rat}
    (h : operandBuffers s d = some (bufA, bufB)) : s.physBuf d.a = some bufA ∧ s.physBuf d.b = some bufB := by
  unfold operandBuffers at h
  split at h
  · next xs ys hA hB => cases h; exact ⟨hA, hB⟩
  · cases h

/-- A physical buffer is within its depth (R31). -/
theorem State.Inv.physBuf_length_le {s : State} (hinv : s.Inv) {c : Nat} {xs : List Rat} (h : s.physBuf c = some xs) :
    xs.length ≤ s.cfg.sampleBufferDepth := by
  obtain ⟨_, _, _, _, _, hphys, _⟩ := hinv
  obtain ⟨hc, rfl⟩ := Vector.getElem?_eq_some_iff.mp h
  exact hphys ⟨c, hc⟩

/-- A recompute keeps a descriptor well-formed: an element is computed only where the operand buffers, and so the index, are
within the depth (R34, R35). -/
theorem Recomputed.wf {s : State} {d e : Descriptor} (h : Recomputed s d e) (hinv : s.Inv) (hd : d.wf s.cfg) :
    e.wf s.cfg := by
  obtain ⟨hlevel, ha, hb, hbuf, hwork⟩ := hd
  cases h with
  | whole ho =>
    obtain ⟨hA, _⟩ := operandBuffers_eq_some ho
    refine ⟨hlevel, ha, hb, ?_, hwork⟩
    have hlen := hinv.physBuf_length_le hA
    simp only [pointwise, List.length_zipWith]
    omega
  | started hm =>
    refine ⟨hlevel, ha, hb, hbuf, fun i acc hw => ?_⟩
    cases hw
    exact ⟨rfl, Nat.zero_le _, hm⟩
  | advanced hw ho hx =>
    obtain ⟨hA, _⟩ := operandBuffers_eq_some ho
    have hlen := hinv.physBuf_length_le hA
    obtain ⟨hi, _⟩ := List.getElem?_eq_some_iff.mp hx
    obtain ⟨hacc, _, hm⟩ := hwork _ _ hw
    refine ⟨hlevel, ha, hb, hbuf, fun i acc hw' => ?_⟩
    cases hw'
    exact ⟨by simp [hacc], by omega, hm⟩
  | finished hw =>
    obtain ⟨hacc, hi, _⟩ := hwork _ _ hw
    exact ⟨hlevel, ha, hb, hacc.trans_le hi, nofun⟩

/-- A channel of level 0 that exists is physical, since every live derived channel has level 1 (R213, R220). -/
theorem State.Inv.lt_two_of_level {s : State} (hinv : s.Inv) {c : Nat} (hc : s.chanExists c = true)
    (hlevel : s.level c = 0) : c < 2 := by
  by_contra hge
  cases hd : s.desc c with
  | none => simp [State.chanExists, hd, hge] at hc
  | some d =>
    obtain ⟨_, _, hone, _⟩ := hinv.of_desc hd
    simp [State.level, hd, hge, hone] at hlevel

/-! ### What each update of the state needs to keep the invariant -/

section Updates

variable {s : State} (hinv : s.Inv)
include hinv

theorem State.Inv.setFw {fw : Firmware} (hfw : fw.wf) : (s.setFw fw).Inv := by
  obtain ⟨hcfg, _, hlink, hasm, hqueue, hch⟩ := hinv
  exact ⟨hcfg, hfw, hlink, hasm, hqueue, hch⟩

theorem State.Inv.setWire {w : List Byte} (hw : s.linkUp = false → w = []) : (s.setWire w).Inv := by
  obtain ⟨hcfg, hfw, _, hasm, hqueue, hch⟩ := hinv
  exact ⟨hcfg, hfw, hw, hasm, hqueue, hch⟩

/-- Losing the link takes the bytes in flight with it (R159). -/
theorem State.Inv.loseLink : ((s.setLink false).setWire []).Inv := by
  obtain ⟨hcfg, hfw, _, hasm, hqueue, hch⟩ := hinv
  exact ⟨hcfg, hfw, fun _ => rfl, hasm, hqueue, hch⟩

theorem State.Inv.setLink_true : (s.setLink true).Inv := by
  obtain ⟨hcfg, hfw, _, hasm, hqueue, hch⟩ := hinv
  exact ⟨hcfg, hfw, nofun, hasm, hqueue, hch⟩

theorem State.Inv.setAsm {bs : List Byte} (hbs : bs.length ≤ packetBytes) : (s.setAsm bs).Inv := by
  obtain ⟨hcfg, hfw, hlink, _, hqueue, hch⟩ := hinv
  exact ⟨hcfg, hfw, hlink, hbs, hqueue, hch⟩

theorem State.Inv.setQueue {q : List Code} (hq : q.length ≤ s.cfg.hostQueueDepth) : (s.setQueue q).Inv := by
  obtain ⟨hcfg, hfw, hlink, hasm, _, hch⟩ := hinv
  exact ⟨hcfg, hfw, hlink, hasm, hq, hch⟩

theorem State.Inv.countDesync : s.countDesync.Inv := hinv

theorem State.Inv.answer (st : Status) : (s.answer st).Inv := hinv

theorem State.Inv.setResult (x : XVal) : (s.setResult x).Inv := hinv

theorem State.Inv.takeSlot (rest : List Slot) : (s.takeSlot rest).Inv := hinv

/-- A push evicts from a full buffer, so it stays within its depth (R31, R40). -/
theorem State.Inv.pushPhys (p : Fin 2) (x : Rat) : (s.pushPhys p x).Inv := by
  obtain ⟨hcfg, hfw, hlink, hasm, hqueue, hphys, hmap⟩ := hinv
  refine ⟨hcfg, hfw, hlink, hasm, hqueue, fun p' => ?_, hmap⟩
  obtain ⟨hdepth, _⟩ := hcfg
  by_cases hp : p' = p
  · subst hp
    rw [pushPhys_phys_self]
    exact rbPush_length_le _ x hdepth
  · rw [pushPhys_phys_other s x hp]
    exact hphys p'

/-- A live channel's descriptor may be set to any well-formed one. -/
theorem State.Inv.setDesc_of_live {id : Nat} {d e : Descriptor} (hd : s.desc id = some d) (he : e.wf s.cfg) :
    (s.setDesc id e).Inv := by
  obtain ⟨hid, hlt, _⟩ := hinv.of_desc hd
  obtain ⟨hcfg, hfw, hlink, hasm, hqueue, hphys, hcanon, hlen, hnext, hall⟩ := hinv
  refine ⟨hcfg, hfw, hlink, hasm, hqueue, hphys, insertDesc_canonical id e hcanon, ?_, hnext, fun x hx => ?_⟩
  · exact (insertDesc_length_of_live e hcanon (Option.isSome_of_mem hd)).trans_le hlen
  · obtain rfl | hx := mem_insertDesc hx
    · exact ⟨hid, hlt, he⟩
    · exact hall x hx

/-- A well-formed new channel may take the next id while a place is left (R32, R36). -/
theorem State.Inv.register {e : Descriptor} (he : e.wf s.cfg) (hroom : s.ch.derived.length ≠ maxDerived) :
    ((s.setDesc s.ch.nextId e).takeId).Inv := by
  obtain ⟨hcfg, hfw, hlink, hasm, hqueue, hphys, hcanon, hlen, hnext, hall⟩ := hinv
  refine ⟨hcfg, hfw, hlink, hasm, hqueue, hphys, insertDesc_canonical _ e hcanon, ?_, Nat.le_succ_of_le hnext,
    fun x hx => ?_⟩
  · exact (insertDesc_length_le s.ch.nextId e _).trans (hlen.lt_of_ne hroom)
  · obtain rfl | hx := mem_insertDesc hx
    · exact ⟨hnext, Nat.lt_succ_self _, he⟩
    · obtain ⟨hid, hlt, hwf⟩ := hall x hx
      exact ⟨hid, Nat.lt_succ_of_lt hlt, hwf⟩

theorem State.Inv.dropDesc (id : Nat) : (s.dropDesc id).Inv := by
  obtain ⟨hcfg, hfw, hlink, hasm, hqueue, hphys, hcanon, hlen, hnext, hall⟩ := hinv
  exact ⟨hcfg, hfw, hlink, hasm, hqueue, hphys, eraseDesc_canonical id hcanon,
    (eraseDesc_length_le id _).trans hlen, hnext, fun x hx => hall x (List.mem_of_mem_filter hx)⟩

/-- The host's reset values meet the invariant beside any firmware, wire and link that do (R282). -/
theorem State.Inv.restartHost : State.Inv { s with dec := ⟨[], 0, []⟩, ch := ⟨#v[[], []], [], 2⟩ } := by
  obtain ⟨hcfg, hfw, hlink, _⟩ := hinv
  have hphys : ∀ p : Fin 2, (#v[[], []] : Vector (List Rat) 2)[p].length ≤ s.cfg.sampleBufferDepth :=
    Fin.forall_fin_two.mpr ⟨Nat.zero_le _, Nat.zero_le _⟩
  exact ⟨hcfg, hfw, hlink, Nat.zero_le _, Nat.zero_le _, hphys, List.Pairwise.nil, Nat.zero_le _, le_rfl, nofun⟩

end Updates

/-! ### Every step keeps the invariant -/

/-- Every operation keeps the invariant: its next state by its inversion lemma, then the rules of the updates it makes. -/
theorem State.Inv.exec {i : Instr} {s t : State} (hinv : s.Inv) (h : exec i s = .next t) : t.Inv := by
  have ⟨⟨_, hdepth, _⟩, hfw, hlink, hasm, hqueue, _⟩ := hinv
  cases i with
  | smpConvert v =>
    obtain ⟨hk, rfl⟩ := execSmpConvert_next h
    exact hinv.setFw (hfw.convert v hk)
  | smpEmit =>
    obtain ⟨_, q, _, rfl⟩ := execSmpEmit_next h
    rw [transmit_eq_setWire]
    exact (hinv.setWire fun hdown => by simp [hdown, hlink]).setFw Firmware.reset_wf
  | lnkDrop =>
    obtain ⟨b, rest, hw, rfl⟩ := execLnkDrop_next h
    exact hinv.setWire fun hdown => by simp [hlink hdown] at hw
  | lnkDown => obtain ⟨_, rfl⟩ := execLnkDown_next h; exact hinv.loseLink.answer _
  | lnkUp => obtain ⟨_, rfl⟩ := execLnkUp_next h; exact hinv.setLink_true
  | decIngest =>
    obtain ⟨hup, hlt, b, rest, _, rfl⟩ := execDecIngest_next h
    exact (hinv.setAsm (by simpa using hlt)).setWire fun hdown => by simp [hup] at hdown
  | decUnpack =>
    obtain ⟨b0, b1, b2, b3, b4, _, _, rfl⟩ := execDecUnpack_next h
    exact (hinv.setQueue (rbPushAll_length_le _ _ hdepth hqueue)).setAsm (Nat.zero_le _)
  | decSlip =>
    obtain ⟨_, _, rfl⟩ := execDecSlip_next h
    exact (hinv.setAsm (s.dec.asm.tail_sublist.length_le.trans hasm)).countDesync
  | decPush =>
    obtain ⟨c, rest, hq, rfl⟩ := execDecPush_next h
    have hrest : rest.length ≤ s.cfg.hostQueueDepth := by rw [hq, List.length_cons] at hqueue; omega
    exact (hinv.setQueue hrest).pushPhys _ _
  | envFeed v => obtain rfl := execEnvFeed_next h; exact hinv.pushPhys _ _
  | mthCreate ctl a b =>
    obtain ⟨st, _, rfl⟩ | ⟨ha, hb, hla, hlb, hroom, rfl⟩ := execMthCreate_next h
    · exact hinv.answer st
    · have hnew := Descriptor.wf_new s.cfg ctl (hinv.lt_two_of_level ha hla) (hinv.lt_two_of_level hb hlb)
      exact (hinv.register hnew hroom).answer _
  | mthDelete id =>
    obtain ⟨_, rfl⟩ | ⟨d, _, _, rfl⟩ := execMthDelete_next h
    · exact hinv.answer _
    · exact (hinv.dropDesc id).answer _
  | mthRecompute id | mthBegin id | mthElem id =>
    obtain ⟨d, e, hd, hde, rfl⟩ := exec_recompute_next (id := id) (by simp) h
    obtain ⟨_, _, hwf⟩ := hinv.of_desc hd
    exact hinv.setDesc_of_live hd (hde.wf hinv hwf)
  | rstFw => obtain rfl := execRstFw_next h; exact hinv.setFw Firmware.reset_wf
  | rstHost => obtain rfl := execRstHost_next h; exact hinv.restartHost
  | add | subAB | subBA | mul | divAB | divBA =>
    obtain ⟨x, rfl⟩ := exec_operator_next rfl h
    exact hinv.setResult x

/-- Settles O53: taking the entry off the schedule keeps the invariant, and so does the operation it decodes to. -/
theorem stepKeepsInvariant : Obligations.StepKeepsInvariant := by
  intro s t hinv h
  obtain ⟨i, rest, _, hexec⟩ := step_next h
  exact (hinv.takeSlot rest).exec hexec

end Sys2Proof.Machine
end

section
/-!
The packet as a 40-bit word (R62): the fields that packing joins do not overlap, so each join is a sum, and the bytes and the samples
are read off the sum.
-/

namespace Sys2Proof.Machine

/-! ### Joining fields -/

/-- A field joined above the `k` bits of another adds its value at weight `2 ^ k`. -/
theorem nat_or_shiftLeft_eq_add {a k : Nat} (ha : a < 2 ^ k) (b : Nat) : a ||| b <<< k = a + b * 2 ^ k := by
  rw [Nat.lor_comm, ← Nat.shiftLeft_add_eq_or_of_lt ha, Nat.shiftLeft_eq, Nat.add_comm]

theorem bitVec_or_shiftLeft_toNat {n k : Nat} {x y : BitVec n} (hx : x.toNat < 2 ^ k) (hy : y.toNat * 2 ^ k < 2 ^ n) :
    (x ||| y <<< k).toNat = x.toNat + y.toNat * 2 ^ k := by
  rw [BitVec.toNat_or, BitVec.toNat_shiftLeft, Nat.mod_eq_of_lt (by rwa [Nat.shiftLeft_eq]),
    nat_or_shiftLeft_eq_add hx]

theorem byteOf_toNat {n : Nat} (v : BitVec n) {hi lo : Nat} (h : hi - lo + 1 ≤ 8) :
    (byteOf v hi lo).toNat = v.toNat / 2 ^ lo % 2 ^ (hi - lo + 1) := by
  have hlt : v.toNat / 2 ^ lo % 2 ^ (hi - lo + 1) < 2 ^ 8 :=
    (Nat.mod_lt _ (Nat.two_pow_pos _)).trans_le (Nat.pow_le_pow_right (by decide) h)
  rw [byteOf, BitVec.toNat_setWidth, BitVec.extractLsb_toNat, Nat.shiftRight_eq_div_pow, Nat.mod_eq_of_lt hlt]

/-- A byte of two fields, the second joined above the `k` bits of the first, is their sum. -/
theorem byteOf_or_shiftLeft_toNat {m n : Nat} (v : BitVec m) (w : BitVec n) {hi lo hi' lo' k : Nat}
    (hk : hi - lo + 1 = k) (h : hi' - lo' + 1 + k ≤ 8) :
    (byteOf v hi lo ||| byteOf w hi' lo' <<< k).toNat =
      v.toNat / 2 ^ lo % 2 ^ k + w.toNat / 2 ^ lo' % 2 ^ (hi' - lo' + 1) * 2 ^ k := by
  have hv := byteOf_toNat v (hi := hi) (lo := lo) (by omega)
  have hw := byteOf_toNat w (hi := hi') (lo := lo') (by omega)
  have hvlt : (byteOf v hi lo).toNat < 2 ^ k := by rw [hv, hk]; exact Nat.mod_lt _ (Nat.two_pow_pos k)
  have hwlt : (byteOf w hi' lo').toNat * 2 ^ k < 2 ^ 8 := calc
    (byteOf w hi' lo').toNat * 2 ^ k < 2 ^ (hi' - lo' + 1) * 2 ^ k := by
      rw [hw]; exact Nat.mul_lt_mul_of_pos_right (Nat.mod_lt _ (Nat.two_pow_pos _)) (Nat.two_pow_pos k)
    _ = 2 ^ (hi' - lo' + 1 + k) := (Nat.pow_add ..).symm
    _ ≤ 2 ^ 8 := Nat.pow_le_pow_right (by decide) h
  rw [bitVec_or_shiftLeft_toNat hvlt hwlt, hv, hw, hk]

/-! ### The word and its bytes -/

theorem quad_toNat_lt (q : Quad) :
    q.s0.toNat < 1024 ∧ q.s1.toNat < 1024 ∧ q.s2.toNat < 1024 ∧ q.s3.toNat < 1024 :=
  ⟨q.s0.isLt, q.s1.isLt, q.s2.isLt, q.s3.isLt⟩

/-- The 40-bit word of four samples, as the sum of its ten-bit fields (R62). -/
def packetWord (q : Quad) : Nat :=
  q.s0.toNat + q.s1.toNat * 2 ^ 10 + q.s2.toNat * 2 ^ 20 + q.s3.toNat * 2 ^ 30

/-- R62 writes the word with joins in place of sums. -/
theorem or_shiftLeft_eq_packetWord (q : Quad) :
    q.s0.toNat ||| (q.s1.toNat <<< 10) ||| (q.s2.toNat <<< 20) ||| (q.s3.toNat <<< 30) = packetWord q := by
  have hlt := quad_toNat_lt q
  rw [nat_or_shiftLeft_eq_add (k := 10) (by omega), nat_or_shiftLeft_eq_add (k := 20) (by omega),
    nat_or_shiftLeft_eq_add (k := 30) (by omega), packetWord]

theorem packetWord_lt (q : Quad) : packetWord q < 2 ^ 40 := by
  have hlt := quad_toNat_lt q
  unfold packetWord
  omega

/-- Each byte of a packet as the sum of the fields R90 names. -/
theorem pack_toNat (q : Quad) : (pack q).map BitVec.toNat =
    [q.s0.toNat % 256, q.s0.toNat / 256 + q.s1.toNat % 64 * 4, q.s1.toNat / 64 + q.s2.toNat % 16 * 16,
      q.s2.toNat / 16 + q.s3.toNat % 4 * 64, q.s3.toNat / 4] := by
  have hlt := quad_toNat_lt q
  simp only [pack, List.map_cons, List.map_nil, byteOf_or_shiftLeft_toNat, byteOf_toNat, Nat.reduceSub,
    Nat.reduceAdd, Nat.reduceLeDiff, List.cons.injEq, and_true]
  omega

/-- Settles O9: bytes and samples are quotients of the word's sum of fields. -/
theorem packetIsLittleEndianWord : Obligations.PacketIsLittleEndianWord := by
  intro q
  rw [or_shiftLeft_eq_packetWord]
  have hlt := quad_toNat_lt q
  refine ⟨packetWord_lt q, ?bytes, ?samples⟩
  case bytes =>
    rw [pack_toNat, show List.range 5 = [0, 1, 2, 3, 4] from rfl]
    simp only [List.map_cons, List.map_nil, Nat.reduceMul, packetWord, List.cons.injEq, and_true]
    omega
  case samples =>
    rw [quadCodes, show List.range 4 = [0, 1, 2, 3] from rfl]
    simp only [List.map_cons, List.map_nil, Nat.reduceMul, packetWord, List.cons.injEq, and_true]
    omega

end Sys2Proof.Machine
end

section
/-!
The alignment measure (R67, R285; log entry 12): it reads the lengths of window and wire together, so bytes that pass from one to the other
and whole packets that come or go leave it as it was, and a byte lost moves it by one.
-/

namespace Sys2Proof.Machine

@[simp] theorem pack_length (q : Quad) : (pack q).length = 5 := rfl

/-- A byte lost from window or wire moves the measure by one. -/
theorem misalignment_succ_of_loss {s t : State}
    (h : t.dec.asm.length + t.wire.length + 1 = s.dec.asm.length + s.wire.length) :
    (t.misalignment + 1) % 5 = s.misalignment := by
  unfold State.misalignment
  omega

/-- An operation that writes neither window nor wire keeps the measure (R39). -/
theorem exec_keeps_misalignment {i : Instr} {s t : State} (h : exec i s = .next t) (hemit : i ≠ .smpEmit)
    (hdrop : i ≠ .lnkDrop) (hdown : i ≠ .lnkDown) (hingest : i ≠ .decIngest) (hunpack : i ≠ .decUnpack)
    (hslip : i ≠ .decSlip) (hrst : i ≠ .rstHost) : t.misalignment = s.misalignment := by
  obtain ⟨-, hwire, -, hasm, -⟩ := accessTableFrames i s t h
  simp only [State.misalignment, hwire hemit hdrop hdown hingest, hasm hingest hunpack hslip hrst]

/-- An emission adds a whole packet to the wire, or nothing (R122). -/
theorem execSmpEmit_misalignment {s t : State} (h : execSmpEmit s = .next t) : t.misalignment = s.misalignment := by
  obtain ⟨_, q, _, rfl⟩ := execSmpEmit_next h
  simp only [State.misalignment, transmit_eq_setWire, State.setFw_dec, State.setFw_wire, State.setWire_dec,
    State.setWire_wire]
  split
  · rw [List.length_append, pack_length]; omega
  · rfl

/-- An ingestion moves a byte from the wire into the window (R151). -/
theorem execDecIngest_misalignment {s t : State} (h : execDecIngest s = .next t) :
    t.misalignment = s.misalignment := by
  obtain ⟨_, _, b, rest, hw, rfl⟩ := execDecIngest_next h
  simp only [State.misalignment, State.setWire_dec, State.setAsm_dec, State.setWire_wire, hw, List.length_append,
    List.length_cons, List.length_nil]
  omega

/-- An unpack takes a whole packet out of the window (R153). -/
theorem execDecUnpack_misalignment {s t : State} (h : execDecUnpack s = .next t) :
    t.misalignment = s.misalignment := by
  obtain ⟨b0, b1, b2, b3, b4, ha, _, rfl⟩ := execDecUnpack_next h
  simp [State.misalignment, ha]

/-- A lost byte leaves the wire (R152). -/
theorem execLnkDrop_misalignment {s t : State} (h : execLnkDrop s = .next t) :
    (t.misalignment + 1) % 5 = s.misalignment := by
  obtain ⟨b, rest, hw, rfl⟩ := execLnkDrop_next h
  exact misalignment_succ_of_loss (by simp [hw, Nat.add_assoc])

/-- A slip takes a byte out of a full window (R154). -/
theorem execDecSlip_misalignment {s t : State} (h : execDecSlip s = .next t) :
    (t.misalignment + 1) % 5 = s.misalignment := by
  obtain ⟨hfull, _, rfl⟩ := execDecSlip_next h
  exact misalignment_succ_of_loss (by simp [hfull, Nat.add_right_comm])

/-- Settles O29: the operations that write window or wire by what they do to the two lengths, any other by its frame. -/
theorem onlyFourOperationsMoveTheAlignmentMeasure : Obligations.OnlyFourOperationsMoveTheAlignmentMeasure := by
  intro i s t h
  refine ⟨fun hdrop hslip hdown hrst => ?keeps, ?moves⟩
  case keeps =>
    by_cases hemit : i = .smpEmit
    · subst hemit; exact execSmpEmit_misalignment h
    by_cases hingest : i = .decIngest
    · subst hingest; exact execDecIngest_misalignment h
    by_cases hunpack : i = .decUnpack
    · subst hunpack; exact execDecUnpack_misalignment h
    exact exec_keeps_misalignment h hemit hdrop hdown hingest hunpack hslip hrst
  case moves =>
    rintro (rfl | rfl)
    · exact execLnkDrop_misalignment h
    · exact execDecSlip_misalignment h

end Sys2Proof.Machine
end

section
/-!
The label decoder and the encoder (R93, R95 to R98). A reader takes exactly what the writer of the same arguments puts there, so
`decode` answers an operation exactly on that operation's encoding, whatever bytes come after it.
-/

namespace Sys2Proof

/-! ### The argument fields of a byte form -/

/-- The bytes of an argument's field (R98). -/
def ArgKind.width (k : ArgKind) : Nat := if k = .sample then 2 else 1

/-- The argument has a byte form: it fits its field (R98). -/
def ArgKind.fits (k : ArgKind) (v : Nat) : Prop := v < 256 ^ k.width

theorem writeArg_length (k : ArgKind) (v : Nat) : (writeArg k v).length = k.width := by
  cases k <;> rfl

/-- Reading a field is the inverse of writing an argument that fits it (R98). -/
theorem readArg_eq_some_iff {k : ArgKind} {bs rest : List Byte} {v : Nat} :
    readArg k bs = some (v, rest) ↔ k.fits v ∧ bs = writeArg k v ++ rest := by
  constructor
  · intro h
    unfold readArg at h
    split at h
    · next lo hi more =>
      cases h
      have hlo := lo.isLt
      have hhi := hi.isLt
      refine ⟨show lo.toNat + 256 * hi.toNat < 256 ^ 2 by omega, ?_⟩
      simp only [writeArg, List.cons_append, List.nil_append, List.cons.injEq, and_true]
      exact ⟨by bv_omega, by bv_omega⟩
    · next b more => cases h; exact ⟨b.isLt, by simp [writeArg]⟩
    · next b more => cases h; exact ⟨b.isLt, by simp [writeArg]⟩
    · cases h
  · rintro ⟨hfits, rfl⟩
    cases k with
    | sample =>
      have hv : v < 256 ^ 2 := hfits
      simp only [writeArg, List.cons_append, List.nil_append, readArg, BitVec.toNat_ofNat, Option.some.injEq,
        Prod.mk.injEq, and_true]
      omega
    | ctl => simp [writeArg, readArg, Nat.mod_eq_of_lt (show v < 256 from hfits)]
    | chan => simp [writeArg, readArg, Nat.mod_eq_of_lt (show v < 256 from hfits)]

/-- Reading the fields of an opcode is the inverse of writing arguments that fit them (R98). -/
theorem readArgs_eq_some_iff {ks : List ArgKind} {bs rest : List Byte} {vs : List Nat} :
    readArgs ks bs = some (vs, rest) ↔
      List.Forall₂ ArgKind.fits ks vs ∧ bs = (List.zipWith writeArg ks vs).flatten ++ rest := by
  induction ks generalizing bs vs with
  | nil => simp [readArgs, eq_comm]
  | cons k ks ih =>
    constructor
    · intro h
      unfold readArgs at h
      split at h
      · cases h
      · next v more hv =>
        split at h <;> cases h
        next vs hvs =>
          obtain ⟨hfit, rfl⟩ := readArg_eq_some_iff.mp hv
          obtain ⟨hfits, rfl⟩ := ih.mp hvs
          exact ⟨.cons hfit hfits, by simp⟩
    · rintro ⟨hfits, rfl⟩
      cases hfits with
      | cons hfit hfits =>
        simp [readArgs, List.append_assoc, readArg_eq_some_iff.mpr ⟨hfit, rfl⟩, ih.mpr ⟨hfits, rfl⟩]

/-! ### The byte form of a label -/

/-- The label has a byte form: its opcode is assigned and takes its arguments, each of which fits its field (R98). -/
def Label.hasByteForm (l : Label) : Prop :=
  ∃ ks, argKinds l.opcode.toNat = some ks ∧ List.Forall₂ ArgKind.fits ks l.args

theorem readLabel_eq_ok_iff {bs rest : List Byte} {l : Label} :
    readLabel bs = .ok (l, rest) ↔ l.hasByteForm ∧ bs = writeLabel l ++ rest := by
  constructor
  · intro h
    unfold readLabel at h
    split at h
    · cases h
    · split at h
      · cases h
      · next ks hks =>
        split at h <;> cases h
        next args hargs =>
          obtain ⟨hfits, rfl⟩ := readArgs_eq_some_iff.mp hargs
          exact ⟨⟨ks, hks, hfits⟩, by simp [writeLabel, hks]⟩
  · rintro ⟨⟨ks, hks, hfits⟩, rfl⟩
    simp [readLabel, writeLabel, hks, readArgs_eq_some_iff.mpr ⟨hfits, rfl⟩]

/-! ### Labels and operations -/

/-- Every instruction has one of the table's two forms, a label or an operator word, that decodes to it (R93, R95). -/
theorem labelForm : ∀ i : Instr, Laws.LabelForm.Statement i
  | .smpConvert v => Laws.LabelForm.smpConvert v
  | .smpEmit => Laws.LabelForm.smpEmit
  | .lnkDrop => Laws.LabelForm.lnkDrop
  | .lnkDown => Laws.LabelForm.lnkDown
  | .lnkUp => Laws.LabelForm.lnkUp
  | .decIngest => Laws.LabelForm.decIngest
  | .decUnpack => Laws.LabelForm.decUnpack
  | .decSlip => Laws.LabelForm.decSlip
  | .decPush => Laws.LabelForm.decPush
  | .envFeed v => Laws.LabelForm.envFeed v
  | .mthCreate ctl a b => Laws.LabelForm.mthCreate ctl a b
  | .mthDelete id => Laws.LabelForm.mthDelete id
  | .mthRecompute id => Laws.LabelForm.mthRecompute id
  | .mthBegin id => Laws.LabelForm.mthBegin id
  | .mthElem id => Laws.LabelForm.mthElem id
  | .rstFw => Laws.LabelForm.rstFw
  | .rstHost => Laws.LabelForm.rstHost
  | .add => Laws.LabelForm.add
  | .subAB => Laws.LabelForm.subAB
  | .subBA => Laws.LabelForm.subBA
  | .mul => Laws.LabelForm.mul
  | .divAB => Laws.LabelForm.divAB
  | .divBA => Laws.LabelForm.divBA

theorem decodeLabel_of_toLabel {i : Instr} {l : Label} (h : toLabel i = some l) : decodeLabel l = .ok i := by
  obtain ⟨l', hl', _, _, hd⟩ | ⟨_, hnone, _⟩ := labelForm i
  · rw [h] at hl'; cases hl'; exact hd
  · rw [h] at hnone; cases hnone

theorem Label.eq_of_opcode_toNat {l : Label} {n : Nat} {args : List Nat} (hop : l.opcode.toNat = n)
    (hargs : l.args = args) : l = ⟨BitVec.ofNat 8 n, args⟩ := by
  rw [← hop, ← hargs, BitVec.ofNat_toNat, BitVec.setWidth_eq]

/-- A label decodes to the one operation whose label it is (R95, R96). -/
theorem decodeLabel_eq_ok_iff {l : Label} {i : Instr} : decodeLabel l = .ok i ↔ toLabel i = some l := by
  refine ⟨fun h => ?_, decodeLabel_of_toLabel⟩
  unfold decodeLabel at h
  split at h
  case h_1 v hop hargs | h_10 v hop hargs =>
    split at h <;> cases h
    next hv => simp [toLabel, Label.eq_of_opcode_toNat hop hargs, Nat.mod_eq_of_lt hv]
  case h_11 c a b hop hargs =>
    split at h <;> cases h
    next hc => simp [toLabel, Label.eq_of_opcode_toNat hop hargs, Nat.mod_eq_of_lt hc]
  case h_18 => split at h <;> cases h
  all_goals
    next hop hargs =>
      cases h
      simp [toLabel, Label.eq_of_opcode_toNat hop hargs]

/-! ### The encoding of an instruction -/

theorem encode_eq_bytes_iff {i : Instr} {bs : List Byte} :
    encode i = .bytes bs ↔ ∃ l, toLabel i = some l ∧ bs = writeLabel l := by
  unfold encode
  split
  · next l hl => simp [hl, eq_comm]
  · next hl => simp [hl]

/-- An instruction without a label is encoded as its operator word (R93). -/
theorem encode_of_toLabel_eq_none {i : Instr} (h : toLabel i = none) :
    ∃ c, encode i = .operator c ∧ decodeCtl c = i := by
  obtain ⟨l, hl, _⟩ | ⟨c, _, hc, hd⟩ := labelForm i
  · rw [h] at hl; cases hl
  · exact ⟨c, by simp [encode, h, hc], hd⟩

/-- The well-formed operations are those whose label has a byte form (R98). -/
theorem wf_iff_hasByteForm {i : Instr} {l : Label} (h : toLabel i = some l) : i.wf = true ↔ l.hasByteForm := by
  have sampleFits (v : Code) : v.toNat < 65536 := v.isLt.trans (by decide)
  have ctlFits (c : Ctl) : c.toNat < 256 := c.isLt.trans (by decide)
  cases i <;> cases h <;>
    simp [Instr.wf, Label.hasByteForm, argKinds, ArgKind.fits, ArgKind.width, sampleFits, ctlFits]

/-! ### Decoding byte forms -/

theorem decode_eq_ok_iff {bs rest : List Byte} {i : Instr} :
    decode bs = .ok (i, rest) ↔ ∃ l, readLabel bs = .ok (l, rest) ∧ decodeLabel l = .ok i := by
  unfold decode
  split
  · next hl => simp [hl]
  · next l more hl =>
    split
    · next hd => simp [hl, hd]
    · next j hd => simp [hl, hd, and_comm]

/-- The decoder answers an operation exactly on its encoding, whatever bytes come after (R98). -/
theorem decode_eq_ok_iff_encode {bs rest : List Byte} {i : Instr} :
    decode bs = .ok (i, rest) ↔ i.wf = true ∧ ∃ front, encode i = .bytes front ∧ bs = front ++ rest := by
  simp only [decode_eq_ok_iff, readLabel_eq_ok_iff, decodeLabel_eq_ok_iff, encode_eq_bytes_iff]
  constructor
  · rintro ⟨l, ⟨hform, hbs⟩, hl⟩
    exact ⟨(wf_iff_hasByteForm hl).mpr hform, _, ⟨l, hl, rfl⟩, hbs⟩
  · rintro ⟨hwf, _, ⟨l, hl, rfl⟩, hbs⟩
    exact ⟨l, ⟨(wf_iff_hasByteForm hl).mp hwf, hbs⟩, hl⟩

/-- Settles O3: an operation by its label's byte form, an operator by its word. -/
theorem decodeOfEncodeIsTheInstruction : Obligations.DecodeOfEncodeIsTheInstruction := by
  intro i rest hwf
  cases hl : toLabel i with
  | some l =>
    have henc : encode i = .bytes (writeLabel l) := encode_eq_bytes_iff.mpr ⟨l, hl, rfl⟩
    exact .inl ⟨writeLabel l, henc, decode_eq_ok_iff_encode.mpr ⟨hwf, writeLabel l, henc, rfl⟩⟩
  | none => exact .inr (encode_of_toLabel_eq_none hl)

/-- Settles O4: the other direction of the same equivalence. -/
theorem decodedBytesAreTheEncoding : Obligations.DecodedBytesAreTheEncoding :=
  fun _ _ _ => decode_eq_ok_iff_encode.mp

end Sys2Proof
end

section
/-!
What the decoders accept and refuse (R93, R95 to R98): the reserved opcodes, the byte forms cut short, the ranges of the arguments,
and the tables of opcodes and operator words.
-/

namespace Sys2Proof

open Machine

/-! ### The decoder by its two stages -/

theorem decode_eq_error_iff {bs : List Byte} {r : Reject} :
    decode bs = .error r ↔
      readLabel bs = .error r ∨ ∃ l rest, readLabel bs = .ok (l, rest) ∧ decodeLabel l = .error r := by
  unfold decode
  split
  · next hl => simp [hl]
  · next l more hl =>
    split
    · next hd => simp [hl, hd]
    · next j hd => simp [hl, hd]

theorem decode_of_readLabel_ok {bs rest : List Byte} {l : Label} {r : Reject} (hl : readLabel bs = .ok (l, rest))
    (hd : decodeLabel l = .error r) : decode bs = .error r :=
  decode_eq_error_iff.mpr (.inr ⟨l, rest, hl, hd⟩)

/-- What a nonempty list of bytes can be read as (R97, R98). -/
theorem readLabel_cons_cases (op : Byte) (bs : List Byte) :
    (argKinds op.toNat = none ∧ readLabel (op :: bs) = .error .reservedOpcode) ∨
    (argKinds op.toNat ≠ none ∧ readLabel (op :: bs) = .error .truncated) ∨
    (argKinds op.toNat ≠ none ∧ ∃ args rest, readLabel (op :: bs) = .ok (⟨op, args⟩, rest)) := by
  cases hks : argKinds op.toNat with
  | none => exact .inl ⟨rfl, by simp [readLabel, hks]⟩
  | some ks =>
    cases hargs : readArgs ks bs with
    | none => exact .inr (.inl ⟨nofun, by simp [readLabel, hks, hargs]⟩)
    | some p => exact .inr (.inr ⟨nofun, p.1, p.2, by simp [readLabel, hks, hargs]⟩)

/-! ### Reserved opcodes -/

/-- The opcodes outside the table (R97). -/
theorem argKinds_eq_none_iff (n : Nat) :
    argKinds n = none ↔ n = 0x00 ∨ (0x03 ≤ n ∧ n ≤ 0x10) ∨ (0x14 ≤ n ∧ n ≤ 0x20) ∨ (0x26 ≤ n ∧ n ≤ 0x30) ∨
      (0x36 ≤ n ∧ n ≤ 0x50) ∨ 0x53 ≤ n := by
  unfold argKinds
  split
  case h_18 =>
    simp only [true_iff, imp_false] at *
    omega
  all_goals decide

theorem decodeLabel_eq_reserved_iff (l : Label) :
    decodeLabel l = .error .reservedOpcode ↔ argKinds l.opcode.toNat = none := by
  unfold decodeLabel
  split
  case h_1 hop _ | h_10 hop _ | h_11 hop _ => rw [hop]; split <;> simp [argKinds]
  case h_18 => cases argKinds l.opcode.toNat <;> simp
  all_goals next hop _ => simp [hop, argKinds]

theorem decode_cons_eq_reserved_iff (op : Byte) (bs : List Byte) :
    decode (op :: bs) = .error .reservedOpcode ↔ argKinds op.toNat = none := by
  obtain ⟨hop, h⟩ | ⟨hop, h⟩ | ⟨hop, args, rest, h⟩ := readLabel_cons_cases op bs
  · simp [decode_eq_error_iff, h, hop]
  · simp [decode_eq_error_iff, h, hop]
  · simp [decode_eq_error_iff, h, decodeLabel_eq_reserved_iff]

/-- A byte at the front of a schedule is refused when the byte form it begins is (R98). -/
theorem decodeSlots_byte_error {b : Byte} {r : Reject} {more : List Slot}
    (h : decode (b :: leadBytes more) = .error r) : decodeSlots (.byte b :: more) = some (.error r) := by
  simp [decodeSlots, h]

theorem decodeSlots_label_error {l : Label} {r : Reject} {more : List Slot} (h : decodeLabel l = .error r) :
    decodeSlots (.label l :: more) = some (.error r) := by
  simp [decodeSlots, h]

/-- Settles O5: each refusal holds exactly where the table has no row for the opcode. -/
theorem reservedOpcodesAreRefused : Obligations.ReservedOpcodesAreRefused := by
  intro op args rest s more reserved
  have hreserved : argKinds op.toNat = none ↔ reserved := argKinds_eq_none_iff op.toNat
  have hdecode (bs : List Byte) : decode (op :: bs) = .error .reservedOpcode ↔ reserved :=
    (decode_cons_eq_reserved_iff op bs).trans hreserved
  have hlabel : decodeLabel ⟨op, args⟩ = .error .reservedOpcode ↔ reserved :=
    (decodeLabel_eq_reserved_iff ⟨op, args⟩).trans hreserved
  exact ⟨hdecode rest, hlabel,
    fun h => step_of_decodeSlots_error (decodeSlots_byte_error ((hdecode _).mpr h)),
    fun h => step_of_decodeSlots_error (decodeSlots_label_error (hlabel.mpr h))⟩

/-! ### Lengths -/

/-- The length of a byte form is fixed by its opcode (R98). -/
theorem labelLength_of_hasByteForm {l : Label} (h : l.hasByteForm) :
    labelLength l.opcode = some (writeLabel l).length := by
  obtain ⟨op, args⟩ := l
  obtain ⟨ks, hks, hfits⟩ := h
  dsimp only at hks hfits
  have hlen : (List.zipWith writeArg ks args).map List.length = ks.map ArgKind.width := by
    clear hks
    induction hfits with
    | nil => rfl
    | cons _ _ ih => simp [writeArg_length, ih]
  have hwidth : labelLength op = some (1 + (ks.map ArgKind.width).sum) := by
    rw [labelLength, hks]; rfl
  rw [hwidth, writeLabel, hks, List.length_cons, Option.getD_some, List.length_flatten, hlen, Nat.add_comm]

theorem decode_of_length_lt {op : Byte} {bs : List Byte} {n : Nat} (hn : labelLength op = some n)
    (hlt : (op :: bs).length < n) : decode (op :: bs) = .error .truncated := by
  obtain ⟨hop, _⟩ | ⟨_, h⟩ | ⟨_, args, rest, h⟩ := readLabel_cons_cases op bs
  · simp [labelLength, hop] at hn
  · exact decode_eq_error_iff.mpr (.inl h)
  · obtain ⟨hform, hbs⟩ := readLabel_eq_ok_iff.mp h
    have hlen : n = (writeLabel ⟨op, args⟩).length :=
      Option.some.inj (hn.symm.trans (labelLength_of_hasByteForm hform))
    rw [hbs, List.length_append] at hlt
    omega

/-! ### Ranges of the arguments -/

theorem decodeLabel_sample_out_of_range {v : Nat} (h : 1023 < v) :
    decodeLabel ⟨0x01, [v]⟩ = .error .sampleOutOfRange ∧ decodeLabel ⟨0x25, [v]⟩ = .error .sampleOutOfRange := by
  have hv : ¬ v < 1024 := by omega
  simp [decodeLabel, hv]

theorem decodeLabel_ctl_out_of_range {c : Nat} (a b : Nat) (h : 7 < c) :
    decodeLabel ⟨0x31, [c, a, b]⟩ = .error .ctlOutOfRange := by
  have hc : ¬ c < 8 := by omega
  simp [decodeLabel, hc]

/-- Settles O7: a must-be-zero bit is a sample or an operator word out of range. -/
theorem byteFormLengthsAndZeroBits : Obligations.ByteFormLengthsAndZeroBits := by
  refine ⟨fun i bs h => ?lengths, fun lo hi rest hhi => ?samples, fun c a b rest hc => ?words,
    fun op bs n => decode_of_length_lt⟩
  case lengths =>
    obtain ⟨l, hl, rfl⟩ := encode_eq_bytes_iff.mp h
    cases i <;> cases hl <;> rfl
  case samples =>
    obtain ⟨hconvert, hfeed⟩ := decodeLabel_sample_out_of_range (v := lo.toNat + 256 * hi.toNat) (by omega)
    exact ⟨decode_of_readLabel_ok rfl hconvert, decode_of_readLabel_ok rfl hfeed⟩
  case words => exact decode_of_readLabel_ok rfl (decodeLabel_ctl_out_of_range a.toNat b.toNat hc)

theorem desc_eq_none_of_chanExists_false {s : State} {id : Nat} (h : s.chanExists id = false) : s.desc id = none := by
  simp only [State.chanExists, Bool.or_eq_false_iff, Option.isSome_eq_false_iff, Option.isNone_iff_eq_none] at h
  exact h.2

/-- Settles O6: an argument in range is the value of a bit vector, and the label of an operation with it decodes to it. -/
theorem argumentRanges : Obligations.ArgumentRanges := by
  refine ⟨fun v hv => ?samples, fun v => decodeLabel_sample_out_of_range, fun c a b hc => ?words,
    fun c a b => decodeLabel_ctl_out_of_range a b, fun id => ?ids, fun s c a b hex => ?create, fun s id _ hex => ?delete⟩
  case samples =>
    obtain ⟨u, rfl⟩ : ∃ u : Code, u.toNat = v := ⟨.ofNat 10 v, Nat.mod_eq_of_lt (Nat.lt_succ_of_le hv)⟩
    exact ⟨u, rfl, decodeLabel_of_toLabel rfl, decodeLabel_of_toLabel rfl⟩
  case words =>
    obtain ⟨w, rfl⟩ : ∃ w : Ctl, w.toNat = c := ⟨.ofNat 3 c, Nat.mod_eq_of_lt (Nat.lt_succ_of_le hc)⟩
    exact ⟨w, rfl, decodeLabel_of_toLabel rfl⟩
  case ids =>
    exact ⟨decodeLabel_of_toLabel rfl, decodeLabel_of_toLabel rfl, decodeLabel_of_toLabel rfl,
      decodeLabel_of_toLabel rfl⟩
  case create => exact if_pos hex
  case delete =>
    show execMthDelete id s = _
    simp [execMthDelete, desc_eq_none_of_chanExists_false hex, State.answer]

/-! ### The tables -/

/-- Settles O1: each label is that of its operation, and the byte forms are evaluated. -/
theorem opcodesDecodeToOperations : Obligations.OpcodesDecodeToOperations := by
  intro v ctl a b id
  refine ⟨decodeLabel_of_toLabel rfl, decodeLabel_of_toLabel rfl, decodeLabel_of_toLabel rfl,
    decodeLabel_of_toLabel rfl, decodeLabel_of_toLabel rfl, decodeLabel_of_toLabel rfl, decodeLabel_of_toLabel rfl,
    decodeLabel_of_toLabel rfl, decodeLabel_of_toLabel rfl, decodeLabel_of_toLabel rfl, decodeLabel_of_toLabel rfl,
    decodeLabel_of_toLabel rfl, decodeLabel_of_toLabel rfl, decodeLabel_of_toLabel rfl, decodeLabel_of_toLabel rfl,
    decodeLabel_of_toLabel rfl, decodeLabel_of_toLabel rfl, ?_⟩
  decide

/-- Settles O2: the two dispatches on the word, evaluated at each of its 8 values. -/
theorem operatorWordTable : Obligations.OperatorWordTable :=
  ⟨by decide, fun _ _ => ⟨rfl, rfl, rfl, rfl, rfl, rfl, rfl, rfl⟩⟩

end Sys2Proof
end

section
/-!
Packing and unpacking are inverse (R91): each code is the sum of its two fields, as each byte is (`pack_toNat`).
-/

namespace Sys2Proof.Machine

theorem codeOf_toNat (b : Byte) {hi lo : Nat} (h : hi - lo + 1 ≤ 10) :
    (codeOf b hi lo).toNat = b.toNat / 2 ^ lo % 2 ^ (hi - lo + 1) := by
  have hlt : b.toNat / 2 ^ lo % 2 ^ (hi - lo + 1) < 2 ^ 10 :=
    (Nat.mod_lt _ (Nat.two_pow_pos _)).trans_le (Nat.pow_le_pow_right (by decide) h)
  rw [codeOf, BitVec.toNat_setWidth, BitVec.extractLsb_toNat, Nat.shiftRight_eq_div_pow, Nat.mod_eq_of_lt hlt]

/-- Each code of a window as the sum of the fields R91 names; the side conditions say that the two fields of a code do not overlap. -/
theorem unpack_toNat (b0 b1 b2 b3 b4 : Byte) :
    (unpack b0 b1 b2 b3 b4).s0.toNat = b0.toNat + 256 * (b1.toNat % 4) ∧
    (unpack b0 b1 b2 b3 b4).s1.toNat = b1.toNat / 4 + 64 * (b2.toNat % 16) ∧
    (unpack b0 b1 b2 b3 b4).s2.toNat = b2.toNat / 16 + 16 * (b3.toNat % 64) ∧
    (unpack b0 b1 b2 b3 b4).s3.toNat = b3.toNat / 64 + 4 * b4.toNat := by
  simp (disch := simp only [codeOf_toNat, Nat.reduceSub, Nat.reduceAdd, Nat.reduceLeDiff] <;> omega) only
    [unpack, bitVec_or_shiftLeft_toNat, codeOf_toNat]
  omega

theorem pack_unpack (b0 b1 b2 b3 b4 : Byte) : pack (unpack b0 b1 b2 b3 b4) = [b0, b1, b2, b3, b4] := by
  apply List.map_injective_iff.mpr (fun _ _ => BitVec.eq_of_toNat_eq)
  obtain ⟨hs0, hs1, hs2, hs3⟩ := unpack_toNat b0 b1 b2 b3 b4
  simp only [pack_toNat, hs0, hs1, hs2, hs3, List.map_cons, List.map_nil, List.cons.injEq, and_true]
  omega

theorem quad_eq_of_toNat {q r : Quad} (h0 : q.s0.toNat = r.s0.toNat) (h1 : q.s1.toNat = r.s1.toNat)
    (h2 : q.s2.toNat = r.s2.toNat) (h3 : q.s3.toNat = r.s3.toNat) : q = r := by
  cases q
  cases r
  simp only [Quad.mk.injEq]
  exact ⟨BitVec.eq_of_toNat_eq h0, BitVec.eq_of_toNat_eq h1, BitVec.eq_of_toNat_eq h2, BitVec.eq_of_toNat_eq h3⟩

theorem unpack_of_pack {q : Quad} {b0 b1 b2 b3 b4 : Byte} (h : pack q = [b0, b1, b2, b3, b4]) :
    unpack b0 b1 b2 b3 b4 = q := by
  have hq := quad_toNat_lt q
  have hbytes := pack_toNat q
  rw [h] at hbytes
  simp only [List.map_cons, List.map_nil, List.cons.injEq, and_true] at hbytes
  obtain ⟨h0, h1, h2, h3, h4⟩ := hbytes
  obtain ⟨hs0, hs1, hs2, hs3⟩ := unpack_toNat b0 b1 b2 b3 b4
  apply quad_eq_of_toNat <;> omega

/-- Settles O8: the sums of fields give both inverse laws, and the first gives that the quadruple is unique. -/
theorem packAndUnpackAreInverse : Obligations.PackAndUnpackAreInverse :=
  ⟨fun _ => ⟨_, _, _, _, _, rfl, unpack_of_pack rfl⟩, fun b0 b1 b2 b3 b4 =>
    ⟨pack_unpack b0 b1 b2 b3 b4, ⟨_, pack_unpack b0 b1 b2 b3 b4, fun _ h => (unpack_of_pack h).symm⟩,
      unpack_toNat b0 b1 b2 b3 b4⟩⟩

end Sys2Proof.Machine
end

section
/-!
A non-atomic recompute that nothing interrupts (R101, R217): each element step adds the next element of the point-wise result, so the
steps that MTH.RUN expands to leave the buffer an atomic recompute gives (R214).
-/

namespace Sys2Proof.Machine

/-! ### Writes of one descriptor -/

theorem insertDesc_insertDesc (id : Nat) (d e : Descriptor) (m : List (Nat × Descriptor)) :
    insertDesc id e (insertDesc id d m) = insertDesc id e m := by
  fun_induction insertDesc id d m with
  | case1 => simp [insertDesc]
  | case2 k f rest hlt => simp [insertDesc, hlt]
  | case3 f rest hlt => simp [insertDesc]
  | case4 k f rest hlt hne ih => simp [insertDesc, hlt, hne, ih]

/-- A later write of the same descriptor replaces the earlier one. -/
@[simp] theorem setDesc_setDesc (s : State) (id : Nat) (d e : Descriptor) :
    (s.setDesc id d).setDesc id e = s.setDesc id e := by
  simp [State.setDesc, insertDesc_insertDesc]

theorem operandBuffers_eq_some_iff {s : State} {d : Descriptor} {bufA bufB : List Rat} :
    operandBuffers s d = some (bufA, bufB) ↔ s.physBuf d.a = some bufA ∧ s.physBuf d.b = some bufB :=
  ⟨operandBuffers_eq_some, fun ⟨hA, hB⟩ => by simp [operandBuffers, hA, hB]⟩

/-! ### The steps of a non-atomic recompute -/

theorem execMthBegin_of_idle {s : State} {id : Nat} {d : Descriptor} (hmode : s.cfg.recomputeAtomic = false)
    (hd : s.desc id = some d) (hw : d.work = none) :
    exec (.mthBegin id) s = .next (s.setDesc id { d with work := some (0, []) }) := by
  simp [exec, execMthBegin, hmode, hd, hw]

section Element

variable {s : State} {id i : Nat} {d : Descriptor} {acc : List XVal} {bufA bufB : List Rat}
  (hmode : s.cfg.recomputeAtomic = false) (hd : s.desc id = some d) (hw : d.work = some (i, acc))
  (ho : operandBuffers s d = some (bufA, bufB))
include hmode hd hw ho

/-- Within the overlap an element step computes the element of its index (R217). -/
theorem execMthElem_of_element {x y : Rat} (hx : bufA[i]? = some x) (hy : bufB[i]? = some y) :
    exec (.mthElem id) s =
      .next (s.setDesc id { d with work := some (i + 1, acc ++ [applyCtl d.ctl x y]) }) := by
  simp [exec, execMthElem, hmode, hd, hw, ho, hx, hy]

/-- At the end of the overlap an element step finishes the recompute (R217). -/
theorem execMthElem_of_overlap_le (hi : min bufA.length bufB.length ≤ i) :
    exec (.mthElem id) s = .next (s.setDesc id { d with buf := acc, work := none }) := by
  obtain h | h := min_le_iff.mp hi
  · simp [exec, execMthElem, hmode, hd, hw, ho, List.getElem?_eq_none h]
  · simp [exec, execMthElem, hmode, hd, hw, ho, List.getElem?_eq_none h]

end Element

/-! ### The whole recompute -/

theorem runOps_cons {i : Instr} {is : List Instr} {s t : State} (h : exec i s = .next t) :
    runOps (i :: is) s = runOps is t := by
  simp [runOps, h]

theorem overlap_eq {s : State} {id : Nat} {d : Descriptor} {bufA bufB : List Rat} (hd : s.desc id = some d)
    (ho : operandBuffers s d = some (bufA, bufB)) : overlap s id = min bufA.length bufB.length := by
  simp [overlap, hd, ho]

/-- From index `i` on, the element steps append the rest of the point-wise result and one more ends the recompute (R217). -/
theorem runOps_elements {s : State} {id i m : Nat} {d : Descriptor} {acc : List XVal} {bufA bufB : List Rat}
    (hmode : s.cfg.recomputeAtomic = false) (hd : s.desc id = some d) (hw : d.work = some (i, acc))
    (ho : operandBuffers s d = some (bufA, bufB)) (hm : i + m = min bufA.length bufB.length) :
    runOps (List.replicate (m + 1) (.mthElem id)) s =
      some (s.setDesc id { d with buf := acc ++ (pointwise d.ctl bufA bufB).drop i, work := none }) := by
  have hlen : (pointwise d.ctl bufA bufB).length = i + m := by rw [hm, pointwise, List.length_zipWith]
  induction m generalizing s d i acc with
  | zero =>
    rw [List.replicate_one, runOps_cons (execMthElem_of_overlap_le hmode hd hw ho (by omega)),
      List.drop_eq_nil_iff.mpr (by omega), List.append_nil, runOps]
  | succ m ih =>
    have hA : i < bufA.length := by omega
    have hB : i < bufB.length := by omega
    have hnext : (pointwise d.ctl bufA bufB).drop i =
        applyCtl d.ctl bufA[i] bufB[i] :: (pointwise d.ctl bufA bufB).drop (i + 1) := by
      rw [List.drop_eq_getElem_cons (by omega)]
      simp [pointwise]
    have hrest := ih (d := { d with work := some (i + 1, acc ++ [applyCtl d.ctl bufA[i] bufB[i]]) })
      (s := s.setDesc id _) hmode (desc_setDesc_self s id _) rfl ho (by omega) (hlen.trans (by omega))
    rw [List.replicate_succ, runOps_cons (execMthElem_of_element hmode hd hw ho (List.getElem?_eq_getElem hA)
      (List.getElem?_eq_getElem hB)), hrest, setDesc_setDesc, hnext, List.append_assoc, List.singleton_append]

/-- MTH.RUN under the non-atomic parameter gives the point-wise result and writes nothing else (R101). -/
theorem runOps_expand_run {s : State} {id : Nat} {d : Descriptor} {bufA bufB : List Rat}
    (hmode : s.cfg.recomputeAtomic = false) (hd : s.desc id = some d) (hw : d.work = none)
    (ho : operandBuffers s d = some (bufA, bufB)) :
    runOps (expand s (.run id)) s = some (s.setDesc id { d with buf := pointwise d.ctl bufA bufB }) := by
  have hexpand : expand s (.run id) = .mthBegin id :: List.replicate (overlap s id + 1) (.mthElem id) := by
    simp [expand, hmode]
  have helements := runOps_elements (d := { d with work := some (0, []) }) (s := s.setDesc id _) hmode
    (desc_setDesc_self s id _) rfl ho (Nat.zero_add _)
  rw [hexpand, runOps_cons (execMthBegin_of_idle hmode hd hw), overlap_eq hd ho, helements, setDesc_setDesc,
    List.nil_append, List.drop_zero, ← hw]

/-- Settles O44: the run writes the one descriptor, so every other one is as it was. -/
theorem uninterruptedElementsEqualAtomic : Obligations.UninterruptedElementsEqualAtomic := by
  intro s id d bufA bufB hmode hd hw hA hB
  exact ⟨_, runOps_expand_run hmode hd hw (operandBuffers_eq_some_iff.mpr ⟨hA, hB⟩), desc_setDesc_self s id _,
    fun _ hne => desc_setDesc_other s _ hne, rfl⟩

end Sys2Proof.Machine
end

section
/-!
The firmware sampler (R120 to R123): what its two operations do where their guards hold and where they fail, the order the loop
position forces on them, and what each operation of the block does to the wire.
-/

namespace Sys2Proof.Machine

/-! ### The two operations -/

theorem execSmpConvert_of_lt (v : Code) {s : State} (hk : s.fw.k < 4) :
    exec (.smpConvert v) s = .next (s.setFw ⟨s.fw.k + 1, s.fw.acc.set s.fw.k (some v) hk⟩) :=
  dif_pos hk

theorem execSmpConvert_of_full (v : Code) {s : State} (hk : ¬ s.fw.k < 4) :
    exec (.smpConvert v) s = .fault (.noStep .groupFull) :=
  dif_neg hk

theorem execSmpEmit_of_group {s : State} {q : Quad} (hk : s.fw.k = 4) (hq : groupOf s.fw.acc = some q) :
    exec .smpEmit s = .next ((transmit (pack q) s).setFw ⟨0, #v[none, none, none, none]⟩) := by
  simp [exec, execSmpEmit, hk, hq]

theorem execSmpEmit_of_not_full {s : State} (hk : s.fw.k ≠ 4) :
    exec .smpEmit s = .fault (.noStep .groupNotFull) :=
  if_neg hk

/-- Settles O13: the guard of the conversion holds or fails. -/
theorem convertStoresSample : Obligations.ConvertStoresSample := by
  intro v s
  exact ⟨execSmpConvert_of_lt v, execSmpConvert_of_full v, decodeLabel_of_toLabel rfl,
    execSmpConvert_of_lt 100 (s := { s with fw := ⟨0, s.fw.acc⟩ }) (Nat.zero_lt_succ 3)⟩

/-- Settles O14: a full group is emitted as its packet, any other is not. -/
theorem emitTransmitsPacket : Obligations.EmitTransmitsPacket := by
  intro s
  refine ⟨fun s0 s1 s2 s3 hfw => ?full, execSmpEmit_of_not_full, decodeLabel_of_toLabel rfl, by decide, by decide,
    by decide⟩
  case full =>
    have hgroup : groupOf s.fw.acc = some ⟨s0, s1, s2, s3⟩ := by rw [hfw]; rfl
    rw [execSmpEmit_of_group (by rw [hfw]) hgroup, transmit_eq_setWire]
    rfl

/-! ### The firmware's loop -/

theorem agentOf_eq_firmware_iff {i : Instr} :
    agentOf i = .firmware ↔ (∃ v, i = .smpConvert v) ∨ i = .smpEmit := by
  cases i <;> simp [agentOf]

/-- An operation of the firmware is a conversion, which advances the loop, or the emission, which starts it over (R120). -/
theorem exec_firmware_next {i : Instr} {s t : State} (hi : agentOf i = .firmware) (h : exec i s = .next t) :
    (i ≠ .smpEmit ∧ s.fw.k < 4 ∧ t.fw.k = s.fw.k + 1) ∨ (i = .smpEmit ∧ s.fw.k = 4 ∧ t.fw.k = 0) := by
  obtain ⟨v, rfl⟩ | rfl := agentOf_eq_firmware_iff.mp hi
  · obtain ⟨hk, rfl⟩ := execSmpConvert_next h
    exact .inl ⟨nofun, hk, rfl⟩
  · obtain ⟨hk, q, _, rfl⟩ := execSmpEmit_next h
    exact .inr ⟨rfl, hk, rfl⟩

/-- Another agent's operation leaves the firmware as it was, unless it restarts it (R39). -/
theorem exec_keeps_fw_of_agent {i : Instr} {s t : State} (hi : agentOf i ≠ .firmware) (hrst : i ≠ .rstFw)
    (h : exec i s = .next t) : t.fw = s.fw := by
  rw [ne_eq, agentOf_eq_firmware_iff, not_or, not_exists] at hi
  obtain ⟨hconvert, hemit⟩ := hi
  exact exec_keeps_fw h hconvert hemit hrst

theorem runOps_cons_eq_some {i : Instr} {is : List Instr} {s u : State} (h : runOps (i :: is) s = some u) :
    ∃ t, exec i s = .next t ∧ runOps is t = some u := by
  unfold runOps at h
  split at h
  · next t ht => exact ⟨t, ht, h⟩
  · cases h
  · cases h

/-- From any loop position, the emissions of a run without a firmware reset are the firmware's operations at which the
position, counted on from the start, is 4 (R120). -/
theorem runOps_firmware_emit_iff {ops : List Instr} {s t : State} (hrst : .rstFw ∉ ops) (h : runOps ops s = some t)
    {j : Nat} {i : Instr} (hj : (ops.filter fun o => agentOf o = .firmware)[j]? = some i) :
    i = .smpEmit ↔ (s.fw.k + j) % 5 = 4 := by
  induction ops generalizing s j with
  | nil => simp at hj
  | cons o ops ih =>
    obtain ⟨u, hexec, hrun⟩ := runOps_cons_eq_some h
    obtain ⟨horst, hrst⟩ := List.ne_and_not_mem_of_not_mem_cons hrst
    by_cases ho : agentOf o = .firmware
    · rw [List.filter_cons_of_pos (by simpa using ho)] at hj
      have hloop := exec_firmware_next ho hexec
      cases j with
      | zero =>
        obtain rfl : o = i := by simpa using hj
        obtain ⟨hne, hk, _⟩ | ⟨he, hk, _⟩ := hloop
        · simp only [hne, false_iff]; omega
        · simp [he, hk]
      | succ j =>
        rw [ih hrst hrun (by simpa using hj)]
        omega
    · rw [List.filter_cons_of_neg (by simpa using ho)] at hj
      rw [ih hrst hrun hj, exec_keeps_fw_of_agent ho horst.symm hexec]

/-- Settles O16: the run starts at loop position 0. -/
theorem firmwareLabelsFollowTheLoop : Obligations.FirmwareLabelsFollowTheLoop := by
  intro ops s t hk hrst hrun j i hj
  rw [runOps_firmware_emit_iff hrst hrun hj, hk, Nat.zero_add]

/-! ### The wire -/

/-- An operation other than these four leaves the wire as it was (R39). -/
theorem exec_keeps_wire {i : Instr} {s t : State} (h : exec i s = .next t) (hemit : i ≠ .smpEmit)
    (hdrop : i ≠ .lnkDrop) (hdown : i ≠ .lnkDown) (hingest : i ≠ .decIngest) : t.wire = s.wire := by
  obtain ⟨-, hwire, -⟩ := accessTableFrames i s t h
  exact hwire hemit hdrop hdown hingest

/-- An emission adds one packet at the wire's end, or nothing while the link is absent (R122). -/
theorem execSmpEmit_wire {s t : State} (h : execSmpEmit s = .next t) :
    t.wire = s.wire ∨ (s.linkUp = true ∧ ∃ q, t.wire = s.wire ++ pack q) := by
  obtain ⟨_, q, _, rfl⟩ := execSmpEmit_next h
  rw [transmit_eq_setWire]
  cases hup : s.linkUp
  · exact .inl rfl
  · exact .inr ⟨rfl, q, rfl⟩

/-- Settles O17: the four operations that write the wire by their inversion lemmas, any other by its frame. -/
theorem wireGrowsByPacketsAndShrinksAtItsHead : Obligations.WireGrowsByPacketsAndShrinksAtItsHead := by
  intro i s t h
  by_cases hemit : i = .smpEmit
  · subst hemit
    exact (execSmpEmit_wire h).imp_right fun hgrown => .inl ⟨rfl, hgrown⟩
  by_cases hdrop : i = .lnkDrop
  · subst hdrop
    obtain ⟨b, rest, hw, rfl⟩ := execLnkDrop_next h
    exact .inr (.inr (.inl ⟨.inr rfl, b, hw⟩))
  by_cases hdown : i = .lnkDown
  · subst hdown
    obtain ⟨_, rfl⟩ := execLnkDown_next h
    exact .inr (.inr (.inr ⟨rfl, rfl⟩))
  by_cases hingest : i = .decIngest
  · subst hingest
    obtain ⟨_, _, b, rest, hw, rfl⟩ := execDecIngest_next h
    exact .inr (.inr (.inl ⟨.inl rfl, b, hw⟩))
  exact .inl (exec_keeps_wire h hemit hdrop hdown hingest)

end Sys2Proof.Machine
end

section
/-!
The byte stream as one number (R162): a packet adds 40 bits to it, a window reads 40 of its bits, and the codes of both are
its ten-bit fields.
-/

namespace Sys2Proof.Machine

/-! ### The number a byte sequence stands for -/

theorem bytesValue_lt (es : List Byte) : bytesValue es < 2 ^ (8 * es.length) := by
  induction es with
  | nil => decide
  | cons b es ih =>
    have hb := b.isLt
    rw [List.length_cons, Nat.mul_succ, Nat.pow_add, bytesValue]
    omega

/-- The stream from byte `j` on is the stream's number without its low `8 * j` bits. -/
theorem bytesValue_drop (es : List Byte) (j : Nat) : bytesValue (es.drop j) = bytesValue es >>> (8 * j) := by
  induction j generalizing es with
  | zero => rfl
  | succ j ih =>
    cases es with
    | nil => simp [bytesValue]
    | cons b es =>
      have hb := b.isLt
      have htail : bytesValue (b :: es) >>> 8 = bytesValue es := by
        rw [Nat.shiftRight_eq_div_pow, bytesValue]
        omega
      rw [List.drop_succ_cons, ih, Nat.mul_succ, Nat.add_comm, Nat.shiftRight_add, htail]

/-! ### Ten-bit fields -/

/-- A window's codes are the ten-bit fields of its 40 bits, whatever bytes come after it. -/
theorem quadCodes_unpack_toNat (b0 b1 b2 b3 b4 : Byte) (rest : List Byte) :
    (quadCodes (unpack b0 b1 b2 b3 b4)).map BitVec.toNat =
      (List.range 4).map fun t => (bytesValue (b0 :: b1 :: b2 :: b3 :: b4 :: rest) >>> (10 * t)) % 1024 := by
  obtain ⟨hs0, hs1, hs2, hs3⟩ := unpack_toNat b0 b1 b2 b3 b4
  have h0 := b0.isLt
  have h1 := b1.isLt
  have h2 := b2.isLt
  have h3 := b3.isLt
  rw [quadCodes, show List.range 4 = [0, 1, 2, 3] from rfl]
  simp only [List.map_cons, List.map_nil, hs0, hs1, hs2, hs3, bytesValue, Nat.shiftRight_eq_div_pow, Nat.reduceMul,
    List.cons.injEq, and_true]
  omega

/-- A window at byte `j` reads the stream's ten-bit fields from bit `8 * j` on (R162). -/
theorem window_toNat {es : List Byte} {j : Nat} {b0 b1 b2 b3 b4 : Byte}
    (h : (es.drop j).take 5 = [b0, b1, b2, b3, b4]) :
    (quadCodes (unpack b0 b1 b2 b3 b4)).map BitVec.toNat =
      (List.range 4).map fun t => (bytesValue es >>> (8 * j + 10 * t)) % 1024 := by
  have hdrop : es.drop j = b0 :: b1 :: b2 :: b3 :: b4 :: (es.drop j).drop 5 := by
    conv_lhs => rw [← List.take_append_drop 5 (es.drop j), h]
    rfl
  rw [quadCodes_unpack_toNat b0 b1 b2 b3 b4 ((es.drop j).drop 5), ← hdrop]
  simp only [bytesValue_drop, Nat.shiftRight_add]

/-- The samples of all packets are the stream's ten-bit fields: a packet in front adds its four as the low ones and
moves the others up by four (R62). -/
theorem samples_toNat (qs : List Quad) : (qs.flatMap quadCodes).map BitVec.toNat =
    (List.range (4 * qs.length)).map fun m => (bytesValue (qs.flatMap pack) >>> (10 * m)) % 1024 := by
  induction qs with
  | nil => rfl
  | cons q qs ih =>
    obtain ⟨b0, b1, b2, b3, b4, hbytes, hcodes⟩ := packAndUnpackAreInverse.1 q
    have hstream : (q :: qs).flatMap pack = b0 :: b1 :: b2 :: b3 :: b4 :: qs.flatMap pack := by
      rw [List.flatMap_cons, hbytes]
      rfl
    have hfirst := quadCodes_unpack_toNat b0 b1 b2 b3 b4 (qs.flatMap pack)
    have hrest : bytesValue (qs.flatMap pack) =
        bytesValue (b0 :: b1 :: b2 :: b3 :: b4 :: qs.flatMap pack) >>> 40 :=
      bytesValue_drop (_ :: _ :: _ :: _ :: _ :: _) 5
    rw [hstream, List.flatMap_cons, List.map_append, ← hcodes, hfirst, ih, List.length_cons,
      Nat.mul_succ, Nat.add_comm _ 4, List.range_add, List.map_append, List.map_map, hrest]
    simp only [← Nat.shiftRight_add, Function.comp_def, Nat.mul_add, Nat.reduceMul]

/-- Settles O10: the fields of one window, and those of all packets. -/
theorem windowDecodesStreamBits : Obligations.WindowDecodesStreamBits :=
  ⟨fun _ _ _ _ _ _ _ => window_toNat, samples_toNat⟩

/-! ### Misaligned windows -/

theorem flatMap_pack_length (qs : List Quad) : (qs.flatMap pack).length = 5 * qs.length := by
  simp [List.length_flatMap, Nat.mul_comm]

/-- Sample `m` is field `m` of the stream; past the last sample both are 0. -/
theorem samples_getD_toNat (qs : List Quad) (m : Nat) :
    ((qs.flatMap quadCodes).map BitVec.toNat).getD m 0 = (bytesValue (qs.flatMap pack) >>> (10 * m)) % 1024 := by
  rw [samples_toNat]
  by_cases hm : m < 4 * qs.length
  · simp [List.getD_eq_getElem?_getD, hm]
  · have hlt := bytesValue_lt (qs.flatMap pack)
    rw [flatMap_pack_length] at hlt
    have hzero : bytesValue (qs.flatMap pack) >>> (10 * m) = 0 :=
      Nat.shiftRight_eq_zero _ _ (hlt.trans_le (Nat.pow_le_pow_right (by decide) (by omega)))
    simp [List.getD_eq_getElem?_getD, hm, hzero]

/-- Ten bits from offset `o` in field `m` are the high part of that field and the low part of the next. -/
theorem field_at_offset (v m : Nat) {o : Nat} (ho : o ≤ 10) :
    (v >>> (10 * m + o)) % 1024 =
      (v >>> (10 * m)) % 1024 / 2 ^ o + ((v >>> (10 * (m + 1))) % 1024 % 2 ^ o) * 2 ^ (10 - o) := by
  rw [Nat.mul_succ, Nat.shiftRight_add, Nat.shiftRight_add]
  generalize v >>> (10 * m) = x
  simp only [Nat.shiftRight_eq_div_pow]
  interval_cases o <;> omega

/-- Settles O11: the window's field `t` starts at offset `8 * j % 10` in one sample's field and reaches into the next. -/
theorem misalignedWindowMixesSamples : Obligations.MisalignedWindowMixesSamples := by
  intro qs j t b0 b1 b2 b3 b4 hw ht sample m o
  refine ⟨?code, ?offset⟩
  case code =>
    have hbit : 8 * j + 10 * t = 10 * m + o := by omega
    have hfield := field_at_offset (bytesValue (qs.flatMap pack)) m (o := o) (by omega)
    simp only [sample, samples_getD_toNat, ← hfield, ← hbit, window_toNat hw]
    simp [List.getD_eq_getElem?_getD, ht]
  case offset =>
    have hphase : j % 5 < 5 := Nat.mod_lt _ (by decide)
    have ho : o = 8 * (j % 5) % 10 := by omega
    rw [ho]
    generalize j % 5 = r at hphase
    interval_cases r <;> rfl

end Sys2Proof.Machine
end

section
/-!
The link, the stream decoder and the two feeds of the physical buffers (R151 to R161, R164): what each operation does where its
guard holds; where a guard of the reader fails, the inversion lemma leaves only the hold.
-/

namespace Sys2Proof.Machine

/-! ### The link -/

theorem execLnkDrop_of_cons {s : State} {b : Byte} {rest : List Byte} (hw : s.wire = b :: rest) :
    exec .lnkDrop s = .next (s.setWire rest) := by
  simp [exec, execLnkDrop, hw]

theorem execLnkDrop_of_nil {s : State} (hw : s.wire = []) : exec .lnkDrop s = .fault (.noStep .wireEmpty) := by
  simp [exec, execLnkDrop, hold, hw]

theorem execLnkDown_of_up {s : State} (hup : s.linkUp = true) :
    exec .lnkDown s = .next (((s.setLink false).setWire []).answer .linkLost) :=
  if_pos hup

theorem execLnkDown_of_down {s : State} (hdown : s.linkUp = false) :
    exec .lnkDown s = .fault (.noStep .linkAbsent) :=
  if_neg (by simp [hdown])

theorem execLnkUp_of_down {s : State} (hdown : s.linkUp = false) : exec .lnkUp s = .next (s.setLink true) :=
  if_neg (by simp [hdown])

theorem execLnkUp_of_up {s : State} (hup : s.linkUp = true) : exec .lnkUp s = .fault (.noStep .linkPresent) :=
  if_pos hup

/-- Settles O18: the wire has an oldest byte or is empty. -/
theorem dropLosesOldestByte : Obligations.DropLosesOldestByte :=
  fun _ => ⟨fun _ _ => execLnkDrop_of_cons, execLnkDrop_of_nil⟩

/-- Settles O19: the link is present or absent. -/
theorem linkLossKeepsHostState : Obligations.LinkLossKeepsHostState :=
  fun _ => ⟨execLnkDown_of_up, execLnkDown_of_down⟩

/-- Settles O20: the link is absent or present. -/
theorem linkReturnOnlySetsLink : Obligations.LinkReturnOnlySetsLink :=
  fun _ => ⟨execLnkUp_of_down, execLnkUp_of_up⟩

/-! ### The detector -/

theorem Judgement.admits_some (j : Judgement) : j.admits .plausible = true ∨ j.admits .implausible = true := by
  cases j <;> decide

/-- Every detector admits a verdict, since every judgement does (R157; log entry 3). -/
theorem detect_total (det : Detector) (ctx : DetectContext) :
    detect det ctx .plausible = true ∨ detect det ctx .implausible = true := by
  cases det with
  | never => exact .inl rfl
  | any => exact .inl rfl
  | table others rows => exact Judgement.admits_some (tableJudgement others ctx rows)
  | heuristic n => exact Judgement.admits_some (Config.judge n ctx)

/-- Settles O27: the two named detectors by their definition. -/
theorem detectorInstances : Obligations.DetectorInstances :=
  fun ctx => ⟨⟨rfl, rfl⟩, ⟨rfl, rfl⟩, fun det => detect_total det ctx⟩

/-! ### The reader -/

theorem execDecIngest_of_byte {s : State} {b : Byte} {rest : List Byte} (hup : s.linkUp = true)
    (hw : s.wire = b :: rest) (hroom : s.dec.asm.length < 5) :
    exec .decIngest s = .next ((s.setAsm (s.dec.asm ++ [b])).setWire rest) := by
  simp [exec, execDecIngest, hup, hw, hroom]

theorem execDecUnpack_of_plausible {s : State} {b0 b1 b2 b3 b4 : Byte} (ha : s.dec.asm = [b0, b1, b2, b3, b4])
    (hd : detect s.cfg.desyncDetect (detectContext s) .plausible = true) :
    exec .decUnpack s = .next ((s.setQueue
      (rbPushAll s.dec.queue (quadCodes (unpack b0 b1 b2 b3 b4)) s.cfg.hostQueueDepth)).setAsm []) := by
  simp [exec, execDecUnpack, ha, hd]

theorem execDecSlip_of_implausible {s : State} (hfull : s.dec.asm.length = 5)
    (hd : detect s.cfg.desyncDetect (detectContext s) .implausible = true) :
    exec .decSlip s = .next ((s.setAsm s.dec.asm.tail).countDesync) := by
  simp [exec, execDecSlip, hfull, hd]

/-- An operation of the reader has a step or holds (R261). -/
theorem exec_hostReader_next_or_hold {i : Instr} (hi : agentOf i = .hostReader) (s : State) :
    (∃ t, exec i s = .next t) ∨ ∃ why, exec i s = .fault (.noStep why) := by
  cases i with
  | decIngest | decUnpack | decSlip =>
    simp only [exec, execDecIngest, execDecUnpack, execDecSlip, hold]
    repeat' split
    all_goals simp
  | _ => cases hi

/-- Where no step of a reader's operation is possible, it holds. -/
theorem exec_hostReader_hold {i : Instr} {s : State} (hi : agentOf i = .hostReader)
    (hstop : ∀ t, exec i s ≠ .next t) : ∃ why, exec i s = .fault (.noStep why) :=
  (exec_hostReader_next_or_hold hi s).resolve_left fun ⟨t, ht⟩ => hstop t ht

/-- Settles O21: a step needs the link, a byte on the wire and room in the window. -/
theorem ingestMovesOldestByte : Obligations.IngestMovesOldestByte := by
  intro s
  refine ⟨fun b rest => execDecIngest_of_byte, fun hguard => exec_hostReader_hold rfl fun t ht => ?_⟩
  obtain ⟨hup, hroom, b, rest, hw, -⟩ := execDecIngest_next ht
  obtain hdown | hempty | hfull := hguard
  · simp [hup] at hdown
  · simp [hw] at hempty
  · omega

/-- Settles O22: a step needs a window of five bytes and the verdict plausible. -/
theorem unpackQueuesFourCodes : Obligations.UnpackQueuesFourCodes := by
  intro s
  refine ⟨fun b0 b1 b2 b3 b4 => execDecUnpack_of_plausible, fun hguard => exec_hostReader_hold rfl fun t ht => ?_⟩
  obtain ⟨b0, b1, b2, b3, b4, ha, hd, -⟩ := execDecUnpack_next ht
  simp [ha, hd] at hguard

/-- Settles O23: four pushes keep the newest codes, whatever the depth. -/
theorem unpackKeepsNewestCodes : Obligations.UnpackKeepsNewestCodes := by
  intro s t b0 b1 b2 b3 b4 ha hdepth hlen ht
  obtain ⟨c0, c1, c2, c3, c4, ha', -, rfl⟩ := execDecUnpack_next ht
  obtain ⟨rfl, rfl, rfl, rfl, rfl⟩ : b0 = c0 ∧ b1 = c1 ∧ b2 = c2 ∧ b3 = c3 ∧ b4 = c4 := by simpa [ha] using ha'
  have hqueue := rbPushAll_eq_drop (quadCodes (unpack b0 b1 b2 b3 b4)) s.cfg.hostQueueDepth hdepth s.dec.queue hlen
  have hfour : (quadCodes (unpack b0 b1 b2 b3 b4)).length = 4 := rfl
  rw [hfour] at hqueue
  simp only [State.setAsm_dec, State.setQueue_dec, hqueue, true_and, List.length_drop, List.length_append, hfour]
  omega

/-- Settles O24: a step needs a window of five bytes and the verdict implausible. -/
theorem slipDiscardsByteAndCounts : Obligations.SlipDiscardsByteAndCounts := by
  intro s
  refine ⟨execDecSlip_of_implausible, fun hguard => exec_hostReader_hold rfl fun t ht => ?_⟩
  obtain ⟨hfull, hd, -⟩ := execDecSlip_next ht
  simp [hfull, hd] at hguard

/-- A full window is unpacked or slipped by the verdict the detector admits (R164). -/
theorem exec_full_window {s : State} (hfull : s.dec.asm.length = 5) :
    (∃ t, exec .decUnpack s = .next t) ∨ (∃ t, exec .decSlip s = .next t) := by
  obtain hd | hd := detect_total s.cfg.desyncDetect (detectContext s)
  · match ha : s.dec.asm, hfull with
    | [b0, b1, b2, b3, b4], _ => exact .inl ⟨_, execDecUnpack_of_plausible ha hd⟩
  · exact .inr ⟨_, execDecSlip_of_implausible hfull hd⟩

/-! ### The two feeds -/

theorem execDecPush_of_cons {s : State} {c : Code} {rest : List Code} (hq : s.dec.queue = c :: rest) :
    exec .decPush s = .next ((s.setQueue rest).pushPhys s.cfg.owner (scale s.cfg c)) := by
  simp [exec, execDecPush, hq]

theorem execDecPush_of_nil {s : State} (hq : s.dec.queue = []) : exec .decPush s = .fault (.noStep .queueEmpty) := by
  simp [exec, execDecPush, hold, hq]

/-- Settles O25: the queue has an oldest code or is empty. -/
theorem pushScalesIntoOwnerBuffer : Obligations.PushScalesIntoOwnerBuffer :=
  fun _ => ⟨fun _ _ => execDecPush_of_cons, execDecPush_of_nil⟩

/-- Settles O26: the feed has no guard, and it writes the buffer beside the owner's. -/
theorem feedFillsTheOtherChannel : Obligations.FeedFillsTheOtherChannel := by
  intro s v
  have hother := otherChannel_ne_owner s.cfg
  exact ⟨otherChannel s.cfg, _, hother, rfl, rfl, pushPhys_phys_other s (scale s.cfg v) hother.symm⟩

/-- Settles O28: each guard from the inversion lemma of its operation, and back by what the operation does. -/
theorem readerNeverWaitsForConsumers : Obligations.ReaderNeverWaitsForConsumers := by
  intro s
  refine ⟨⟨fun ⟨t, ht⟩ => ?_, fun ⟨hup, hne, hroom⟩ => ?_⟩, exec_full_window, ⟨fun ⟨t, ht⟩ => ?_, fun hne => ?_⟩⟩
  · obtain ⟨hup, hroom, b, rest, hw, -⟩ := execDecIngest_next ht
    exact ⟨hup, by simp [hw], hroom⟩
  · obtain ⟨b, rest, hw⟩ := List.exists_cons_of_ne_nil hne
    exact ⟨_, execDecIngest_of_byte hup hw hroom⟩
  · obtain ⟨c, rest, hq, -⟩ := execDecPush_next ht
    simp [hq]
  · obtain ⟨c, rest, hq⟩ := List.exists_cons_of_ne_nil hne
    exact ⟨_, execDecPush_of_cons hq⟩

end Sys2Proof.Machine
end

section
/-!
The samples in flight (R163): on an aligned stream each operation of the pipeline moves samples on in order, and a
conversion alone adds one; a run without loss or overflow delivers them to the owner's buffer.
-/

namespace Sys2Proof.Machine

/-! ### The codes of a group and of whole packets -/

theorem Firmware.codes_of_k_zero {fw : Firmware} (hk : fw.k = 0) : fw.codes = [] := by
  simp [Firmware.codes, hk]

/-- A conversion adds its code to those of the present group (R121). -/
theorem Firmware.codes_convert (fw : Firmware) (v : Code) (hk : fw.k < 4) :
    Firmware.codes ⟨fw.k + 1, fw.acc.set fw.k (some v) hk⟩ = fw.codes ++ [v] := by
  have htake : (fw.acc.toList.set fw.k (some v)).take (fw.k + 1) = fw.acc.toList.take fw.k ++ [some v] := by
    simp [List.take_add_one, List.take_set_of_le, hk]
  simp [Firmware.codes, Vector.toList_set, htake]

theorem acc_eq_of_groupOf {acc : Vector (Option Code) 4} {q : Quad} (h : groupOf acc = some q) :
    acc = #v[some q.s0, some q.s1, some q.s2, some q.s3] := by
  unfold groupOf at h
  split at h
  · next h0 h1 h2 h3 =>
    cases h
    ext i hi : 1
    interval_cases i <;> assumption
  · cases h

/-- A full group's codes are those of the packet made of it (R122). -/
theorem Firmware.codes_of_group {fw : Firmware} {q : Quad} (hk : fw.k = 4) (hq : groupOf fw.acc = some q) :
    fw.codes = quadCodes q := by
  rw [Firmware.codes, hk, acc_eq_of_groupOf hq]
  rfl

theorem unpackAll_packet (b0 b1 b2 b3 b4 : Byte) (rest : List Byte) :
    unpackAll (b0 :: b1 :: b2 :: b3 :: b4 :: rest) = quadCodes (unpack b0 b1 b2 b3 b4) ++ unpackAll rest := rfl

/-- After whole packets the codes go on with those of the bytes that come next (R67). -/
theorem unpackAll_append (fs : List Byte) : ∀ {es : List Byte}, es.length % 5 = 0 →
    unpackAll (es ++ fs) = unpackAll es ++ unpackAll fs
  | [], _ => rfl
  | b0 :: b1 :: b2 :: b3 :: b4 :: rest, h => by
    have ih := unpackAll_append fs (es := rest) (by simp only [List.length_cons] at h; omega)
    simp only [List.cons_append, unpackAll_packet, ih, List.append_assoc]
  | [_], h | [_, _], h | [_, _, _], h | [_, _, _, _], h => by simp at h

theorem unpackAll_pack (q : Quad) : unpackAll (pack q) = quadCodes q := by
  obtain ⟨b0, b1, b2, b3, b4, hbytes, hcodes⟩ := packAndUnpackAreInverse.1 q
  rw [hbytes, unpackAll_packet, hcodes]
  exact List.append_nil _

/-! ### The pipeline's operations -/

section Pipeline

variable {s t : State}

theorem execSmpConvert_inFlight {v : Code} (h : execSmpConvert v s = .next t) :
    t.inFlight = s.inFlight ++ [scale s.cfg v] := by
  obtain ⟨hk, rfl⟩ := execSmpConvert_next h
  simp [State.inFlight, Firmware.codes_convert]

/-- An emission puts the group's codes behind those of the whole packets on the way. -/
theorem execSmpEmit_inFlight (hup : s.linkUp = true) (haligned : s.misalignment = 0) (h : execSmpEmit s = .next t) :
    t.inFlight = s.inFlight := by
  obtain ⟨hk, q, hq, rfl⟩ := execSmpEmit_next h
  have hwhole : (s.dec.asm ++ s.wire).length % 5 = 0 := by rwa [List.length_append]
  have hbytes : unpackAll (s.dec.asm ++ (s.wire ++ pack q)) = unpackAll (s.dec.asm ++ s.wire) ++ quadCodes q := by
    rw [← List.append_assoc, unpackAll_append _ hwhole, unpackAll_pack]
  simp [State.inFlight, transmit_eq_setWire, hup, hbytes, Firmware.codes_of_group hk hq, Firmware.codes_of_k_zero]

/-- An ingestion moves a byte from the wire's head to the window's end. -/
theorem execDecIngest_inFlight (h : execDecIngest s = .next t) : t.inFlight = s.inFlight := by
  obtain ⟨_, _, b, rest, hw, rfl⟩ := execDecIngest_next h
  simp [State.inFlight, hw]

/-- An unpack moves the window's codes to the queue's end. -/
theorem execDecUnpack_inFlight (hroom : s.dec.queue.length + 4 ≤ s.cfg.hostQueueDepth)
    (h : execDecUnpack s = .next t) : t.inFlight = s.inFlight := by
  obtain ⟨b0, b1, b2, b3, b4, ha, _, rfl⟩ := execDecUnpack_next h
  have hqueue := rbPushAll_eq_drop (quadCodes (unpack b0 b1 b2 b3 b4)) s.cfg.hostQueueDepth (by omega) s.dec.queue
    (by omega)
  have hnone : s.dec.queue.length + (quadCodes (unpack b0 b1 b2 b3 b4)).length - s.cfg.hostQueueDepth = 0 :=
    Nat.sub_eq_zero_of_le hroom
  rw [hnone, List.drop_zero] at hqueue
  simp [State.inFlight, ha, hqueue, unpackAll_packet]

/-- A push moves the queue's oldest code, scaled, to the buffer's end. -/
theorem execDecPush_inFlight (hroom : s.ch.phys[s.cfg.owner].length < s.cfg.sampleBufferDepth)
    (h : execDecPush s = .next t) : t.inFlight = s.inFlight := by
  obtain ⟨c, rest, hq, rfl⟩ := execDecPush_next h
  have hbuf : rbPush s.ch.phys[s.cfg.owner.val] (scale s.cfg c) s.cfg.sampleBufferDepth =
      s.ch.phys[s.cfg.owner.val] ++ [scale s.cfg c] := rbPush_of_room _ hroom
  simp [State.inFlight, hq, hbuf]

end Pipeline

/-- Settles O30, one operation of the pipeline after another. -/
theorem pipelineStepKeepsSamples : Obligations.PipelineStepKeepsSamples :=
  fun _ _ _ hup haligned => ⟨fun _ => execSmpConvert_inFlight, execSmpEmit_inFlight hup haligned,
    execDecIngest_inFlight, execDecUnpack_inFlight, execDecPush_inFlight⟩

/-! ### A whole run -/

/-- The code an operation brings into the pipeline: a conversion's (R121). -/
def convertedCode : Instr → Option Code
  | .smpConvert v => some v
  | _ => none

/-- An operation that loses no byte and restarts neither side (R163). -/
def withoutLoss (i : Instr) : Prop :=
  i ≠ .lnkDrop ∧ i ≠ .lnkDown ∧ i ≠ .rstFw ∧ i ≠ .rstHost ∧ i ≠ .decSlip

/-- The queue has room for the four codes of an unpack that comes next, and the owner's buffer for a push's sample (R163). -/
def roomFor (cfg : Config) (next : Option Instr) (s : State) : Prop :=
  (next = some .decUnpack → s.dec.queue.length + 4 ≤ cfg.hostQueueDepth) ∧
  (next = some .decPush → s.ch.phys[cfg.owner].length < cfg.sampleBufferDepth)

theorem exec_keeps_cfg {i : Instr} {s t : State} (h : exec i s = .next t) : t.cfg = s.cfg := by
  obtain ⟨-, -, -, -, -, -, -, -, -, -, -, hcfg, -⟩ := accessTableFrames i s t h
  exact hcfg

/-- The link stays up while it is not lost (R26). -/
theorem exec_keeps_linkUp {i : Instr} {s t : State} (hup : s.linkUp = true) (hdown : i ≠ .lnkDown)
    (h : exec i s = .next t) : t.linkUp = true := by
  by_cases hi : i = .lnkUp
  · subst hi
    obtain ⟨_, rfl⟩ := execLnkUp_next h
    rfl
  · obtain ⟨-, -, hlink, -⟩ := accessTableFrames i s t h
    rw [hlink hdown hi, hup]

/-- What the samples in flight are read from. -/
theorem inFlight_congr {s t : State} (hcfg : t.cfg = s.cfg) (hbuf : t.ch.phys[s.cfg.owner] = s.ch.phys[s.cfg.owner])
    (hqueue : t.dec.queue = s.dec.queue) (hasm : t.dec.asm = s.dec.asm) (hwire : t.wire = s.wire)
    (hfw : t.fw = s.fw) : t.inFlight = s.inFlight := by
  simp only [State.inFlight, hcfg, hbuf, hqueue, hasm, hwire, hfw]

/-- Without loss and with room an operation of any agent keeps the samples in flight, and a conversion adds its own. -/
theorem exec_inFlight {i : Instr} {s t : State} (hup : s.linkUp = true) (haligned : s.misalignment = 0)
    (hloss : withoutLoss i) (hroom : roomFor s.cfg (some i) s) (h : exec i s = .next t) :
    t.inFlight = s.inFlight ++ (convertedCode i).toList.map (scale s.cfg) := by
  obtain ⟨hdrop, hdown, hrstFw, hrstHost, hslip⟩ := hloss
  obtain ⟨hunpack, hpush⟩ := hroom
  cases i with
  | smpConvert v => exact execSmpConvert_inFlight h
  | smpEmit => simpa [convertedCode] using execSmpEmit_inFlight hup haligned h
  | decIngest => simpa [convertedCode] using execDecIngest_inFlight h
  | decUnpack => simpa [convertedCode] using execDecUnpack_inFlight (hunpack rfl) h
  | decPush => simpa [convertedCode] using execDecPush_inFlight (hpush rfl) h
  | lnkDrop | lnkDown | rstFw | rstHost | decSlip => contradiction
  | _ =>
    obtain ⟨hfw, hwire, -, hasm, -, hqueue, hbuf, -, -, -, -, hcfg, -⟩ := accessTableFrames _ s t h
    have hkept := inFlight_congr hcfg (hbuf nofun nofun) (hqueue nofun nofun nofun) (hasm nofun nofun nofun nofun)
      (hwire nofun nofun nofun nofun) (hfw nofun nofun nofun)
    simpa [convertedCode] using hkept

/-- Over a run the samples in flight grow by the run's conversions, in their order. -/
theorem runOps_inFlight {ops : List Instr} {s t : State} (hup : s.linkUp = true) (haligned : s.misalignment = 0)
    (hloss : ∀ i ∈ ops, withoutLoss i)
    (hroom : ∀ n u, runOps (ops.take n) s = some u → roomFor s.cfg ops[n]? u) (hrun : runOps ops s = some t) :
    t.cfg = s.cfg ∧ t.inFlight = s.inFlight ++ (ops.filterMap convertedCode).map (scale s.cfg) := by
  induction ops generalizing s with
  | nil =>
    cases hrun
    simp
  | cons i ops ih =>
    obtain ⟨u, hexec, hrest⟩ := runOps_cons_eq_some hrun
    have hi := hloss i List.mem_cons_self
    have ⟨hdrop, hdown, _, hrstHost, hslip⟩ := hi
    have hstep := exec_inFlight hup haligned hi (hroom 0 s rfl) hexec
    have hcfg := exec_keeps_cfg hexec
    obtain ⟨hmeasure, -⟩ := onlyFourOperationsMoveTheAlignmentMeasure i s u hexec
    have hroom' : ∀ n w, runOps (ops.take n) u = some w → roomFor u.cfg ops[n]? w := by
      intro n w hw
      rw [hcfg]
      exact hroom (n + 1) w (by rw [List.take_succ_cons, runOps_cons hexec, hw])
    obtain ⟨hcfg', hflight⟩ := ih (exec_keeps_linkUp hup hdown hexec)
      ((hmeasure hdrop hslip hdown hrstHost).trans haligned) (fun j hj => hloss j (List.mem_cons_of_mem i hj))
      hroom' hrest
    refine ⟨hcfg'.trans hcfg, ?_⟩
    rw [hflight, hstep, hcfg, List.append_assoc, ← List.map_append]
    rw [List.filterMap_cons]
    cases convertedCode i <;> rfl

/-- With the wire, the window, the queue and the group empty, the samples in flight are those in the owner's buffer. -/
theorem inFlight_of_drained {s : State} (hk : s.fw.k = 0) (hwire : s.wire = []) (hasm : s.dec.asm = [])
    (hqueue : s.dec.queue = []) : s.inFlight = s.ch.phys[s.cfg.owner] := by
  simp [State.inFlight, hwire, hasm, hqueue, Firmware.codes_of_k_zero hk, unpackAll]

/-- Settles O31: the law of the run, read off the owner's buffer once all else is empty. -/
theorem endToEndDelivery : Obligations.EndToEndDelivery := by
  intro ops s t _ hup hasm _ hstart hloss hroom hrun converted
  have haligned : s.misalignment = 0 := by simpa [State.alignedStart, hasm] using hstart
  obtain ⟨hcfg, hflight⟩ := runOps_inFlight hup haligned hloss hroom hrun
  refine ⟨hflight, fun hk hwire hasm hqueue => ?_⟩
  have hdrained := inFlight_of_drained hk hwire hasm hqueue
  simp only [hcfg] at hdrained
  exact hdrained.symm.trans hflight

end Sys2Proof.Machine
end

section
/-!
The point-wise arithmetic unit (R200 to R208, R218): its operators on raw codes, the edge rules of division, and that an operator word
runs, and takes an operand paired with itself, as the operator it decodes to.
-/

namespace Sys2Proof.Machine

/-! ### The operators -/

/-- Settles O32: the sum of two codes is taken in the naturals. -/
theorem addGivesExactSum : Obligations.AddGivesExactSum := by
  refine ⟨fun _ => rfl, fun c0 c1 => ⟨c0.toNat + c1.toNat, by omega, ?_⟩⟩
  rw [opAdd, Nat.cast_add]

/-- Settles O33: the difference of two codes is taken in the integers. -/
theorem subtractGivesExactDifference : Obligations.SubtractGivesExactDifference := by
  refine ⟨fun _ => ⟨rfl, rfl⟩, fun _ _ => rfl,
    fun c0 c1 => ⟨(c0.toNat : Int) - c1.toNat, by omega, by omega, ?_⟩⟩
  simp [opSubAB]

/-- Settles O34: the product of two codes is taken in the naturals. -/
theorem multiplyGivesExactProduct : Obligations.MultiplyGivesExactProduct := by
  refine ⟨fun _ => rfl, fun c0 c1 => ⟨c0.toNat * c1.toNat, ?bound, by rw [opMul, Nat.cast_mul]⟩⟩
  case bound =>
    have h0 : c0.toNat ≤ 1023 := by omega
    have h1 : c1.toNat ≤ 1023 := by omega
    exact Nat.mul_le_mul h0 h1

/-! ### Division -/

theorem divide_zero_zero : divide 0 0 = .fin 1 := rfl

/-- By zero the sign of the infinity is the numerator's (R207). -/
theorem divide_zero_of_pos {n : Rat} (hn : 0 < n) : divide n 0 = .posInf := by
  simp [divide, hn, hn.ne']

theorem divide_zero_of_neg {n : Rat} (hn : n < 0) : divide n 0 = .negInf := by
  simp [divide, hn.not_gt, hn.ne]

theorem divide_of_ne_zero (n : Rat) {d : Rat} (hd : d ≠ 0) : divide n d = .fin (n / d) :=
  if_neg hd

/-- A value divided by itself is 1, at 0 by the edge rule (R218). -/
theorem divide_self (x : Rat) : divide x x = .fin 1 := by
  by_cases hx : x = 0
  · rw [hx, divide_zero_zero]
  · rw [divide_of_ne_zero x hx, div_self hx]

/-- Settles O35: the denominator is zero, with the numerator's three signs, or it is not. -/
theorem divisionIsTotal : Obligations.DivisionIsTotal := by
  refine ⟨fun _ => ⟨rfl, rfl⟩, fun n d => ⟨?_, ?_, ?_, divide_of_ne_zero n⟩, divide_zero_of_pos (by norm_num),
    divide_zero_of_neg (by norm_num), ?_, divide_of_ne_zero 1 (by norm_num)⟩
  · rintro rfl rfl
    exact divide_zero_zero
  · rintro rfl
    exact divide_zero_of_pos
  · rintro rfl
    exact divide_zero_of_neg
  · rw [divide_of_ne_zero 6 (by norm_num)]
    norm_num

/-! ### Operator words -/

/-- The operator words (R92). -/
theorem ctl_cases (c : Ctl) : c = 0b000 ∨ c = 0b001 ∨ c = 0b010 ∨ c = 0b011 ∨ c = 0b100 ∨ c = 0b101 ∨ c = 0b110 ∨
    c = 0b111 := by
  revert c
  decide

/-- The operator a word decodes to computes, on the lane, what a descriptor that holds the word does (R208). -/
theorem exec_decodeCtl (c : Ctl) (s : State) :
    exec (decodeCtl c) s = .next (s.setResult (applyCtl c s.lane.a s.lane.b)) := by
  obtain rfl | rfl | rfl | rfl | rfl | rfl | rfl | rfl := ctl_cases c <;> rfl

/-- Settles O36: the step runs the operator on the latched pair. -/
theorem operatorWordsRunAsTheyCompute : Obligations.OperatorWordsRunAsTheyCompute := by
  intro s c a b more
  rw [step_of_operator rfl, exec_decodeCtl]
  rfl

/-- A value paired with itself (R218). -/
theorem applyCtl_self (c : Ctl) (x : Rat) : applyCtl c x x = sameOperandResult (decodeCtl c) x := by
  have hadd : opAdd x x = .fin (2 * x) := congrArg XVal.fin (two_mul x).symm
  have hsub : opSubAB x x = .fin 0 := congrArg XVal.fin (sub_self x)
  have hmul : opMul x x = .fin (x ^ 2) := congrArg XVal.fin (sq x).symm
  obtain rfl | rfl | rfl | rfl | rfl | rfl | rfl | rfl := ctl_cases c
  · exact hadd
  · exact hsub
  · exact hmul
  · exact divide_self x
  · exact hadd
  · exact hsub
  · exact hmul
  · exact divide_self x

end Sys2Proof.Machine
end

section
/-!
The configuration of derived channels and their recompute (R211 to R219): what each operation does where its guard holds, and by what
reason it has no step where the guard fails.
-/

namespace Sys2Proof.Machine

/-! ### Creation -/

theorem chanExists_of_lt_two (s : State) {c : Nat} (hc : c < 2) : s.chanExists c = true := by
  simp [State.chanExists, hc]

theorem level_of_lt_two (s : State) {c : Nat} (hc : c < 2) : s.level c = 0 :=
  if_pos hc

/-- Over operands that exist the nesting is checked next (R256). -/
theorem execMthCreate_of_nested (ctl : Ctl) {a b : Nat} {s : State} (ha : s.chanExists a = true)
    (hb : s.chanExists b = true) (hlevel : maxMathLevel < 1 + max (s.level a) (s.level b)) :
    exec (.mthCreate ctl a b) s = .next (s.answer .nestingTooDeep) := by
  simp [exec, execMthCreate, ha, hb, hlevel]

/-- Over physical operands only the number of live channels is left to check (R211, R256). -/
theorem execMthCreate_of_physical (ctl : Ctl) {a b : Nat} (s : State) (ha : a < 2) (hb : b < 2) :
    exec (.mthCreate ctl a b) s =
      if s.ch.derived.length = maxDerived then .next (s.answer .channelLimitReached)
      else .next (((s.setDesc s.ch.nextId ⟨ctl, a, b, 1, [], none⟩).takeId).answer (.ok (some s.ch.nextId))) := by
  simp [exec, execMthCreate, chanExists_of_lt_two, level_of_lt_two, maxMathLevel, ha, hb]

/-- Settles O37: the creation writes the new descriptor, the next id and the reply. -/
theorem createGivesNextId : Obligations.CreateGivesNextId := by
  intro s ctl a b ha hb hroom
  refine ⟨_, (execMthCreate_of_physical ctl s ha hb).trans (if_neg hroom.ne), ?_⟩
  have hother := fun id => desc_setDesc_other s (id := s.ch.nextId) (id' := id) ⟨ctl, a, b, 1, [], none⟩
  simpa using hother

/-- Settles O38: an operand that exists and is no physical channel has a level above 0. -/
theorem createRejectionsInOrder : Obligations.CreateRejectionsInOrder := by
  intro s ctl a b hinv
  refine ⟨fun hdead => if_pos hdead, fun ha hb hderived => execMthCreate_of_nested ctl ha hb ?nested,
    fun ha hb hfull => (execMthCreate_of_physical ctl s ha hb).trans (if_pos hfull)⟩
  case nested =>
    have hlevel : s.level a ≠ 0 ∨ s.level b ≠ 0 :=
      hderived.imp (fun h h0 => absurd (hinv.lt_two_of_level ha h0) h.not_gt)
        (fun h h0 => absurd (hinv.lt_two_of_level hb h0) h.not_gt)
    show 1 < 1 + max (s.level a) (s.level b)
    omega

/-! ### Deletion -/

theorem execMthDelete_of_dead {s : State} {id : Nat} (hd : s.desc id = none) :
    exec (.mthDelete id) s = .next (s.answer .invalidChannel) := by
  simp [exec, execMthDelete, hd]

theorem execMthDelete_of_idle {s : State} {id : Nat} {d : Descriptor} (hd : s.desc id = some d) (hw : d.work = none) :
    exec (.mthDelete id) s = .next ((s.dropDesc id).answer (.ok none)) := by
  simp [exec, execMthDelete, hd, hw]

theorem execMthDelete_of_inFlight {s : State} {id : Nat} {d : Descriptor} {w : Nat × List XVal}
    (hd : s.desc id = some d) (hw : d.work = some w) :
    exec (.mthDelete id) s = .fault (.noStep .recomputeInFlight) := by
  simp [exec, execMthDelete, hold, hd, hw]

/-- A physical id names no live derived channel (R30). -/
theorem State.Inv.desc_eq_none_of_lt_two {s : State} (hinv : s.Inv) {id : Nat} (hid : id < 2) : s.desc id = none := by
  by_contra hlive
  obtain ⟨d, hd⟩ := Option.ne_none_iff_exists'.mp hlive
  obtain ⟨hge, _⟩ := hinv.of_desc hd
  omega

/-- Settles O39: the id names no live channel, or one with no recompute in flight, or one with a recompute in flight. -/
theorem deleteRemovesOnlyThatChannel : Obligations.DeleteRemovesOnlyThatChannel := by
  intro s id
  refine ⟨fun d hd hw => ⟨_, execMthDelete_of_idle hd hw, ?removed⟩, execMthDelete_of_dead,
    fun hinv hid => execMthDelete_of_dead (hinv.desc_eq_none_of_lt_two hid), fun d w => execMthDelete_of_inFlight⟩
  case removed =>
    have hother := fun id' => desc_dropDesc_other s (id := id) (id' := id')
    simpa [desc_dropDesc_self] using hother

/-! ### Atomic recompute -/

theorem execMthRecompute_of_live {s : State} {id : Nat} {d : Descriptor} {bufA bufB : List Rat}
    (hmode : s.cfg.recomputeAtomic = true) (hd : s.desc id = some d)
    (hA : s.physBuf d.a = some bufA) (hB : s.physBuf d.b = some bufB) :
    exec (.mthRecompute id) s = .next (s.setDesc id { d with buf := pointwise d.ctl bufA bufB }) := by
  simp [exec, execMthRecompute, hmode, hd, operandBuffers_eq_some_iff.mpr ⟨hA, hB⟩]

theorem execMthRecompute_of_elementwise {s : State} (id : Nat) (hmode : s.cfg.recomputeAtomic = false) :
    exec (.mthRecompute id) s = .fault (.noStep .recomputeElementwise) :=
  if_neg (by simp [hmode])

theorem execMthRecompute_of_dead {s : State} {id : Nat} (hmode : s.cfg.recomputeAtomic = true)
    (hd : s.desc id = none) : exec (.mthRecompute id) s = .fault (.noStep .channelNotLive) := by
  simp [exec, execMthRecompute, hold, hmode, hd]

/-- The result is as long as the overlap of the operand buffers (R214). -/
theorem pointwise_length (ctl : Ctl) (bufA bufB : List Rat) :
    (pointwise ctl bufA bufB).length = min bufA.length bufB.length :=
  List.length_zipWith

/-- An element of the result is computed from the two operand elements of its index alone (R219). -/
theorem pointwise_getElem? (ctl : Ctl) {bufA bufB : List Rat} {i : Nat} {x y : Rat} (hx : bufA[i]? = some x)
    (hy : bufB[i]? = some y) : (pointwise ctl bufA bufB)[i]? = some (applyCtl ctl x y) :=
  List.getElem?_zipWith_eq_some.mpr ⟨x, y, hx, hy, rfl⟩

/-- Settles O40: the recompute writes the point-wise result into the one descriptor. -/
theorem recomputeIsPointwise : Obligations.RecomputeIsPointwise := by
  intro s id
  refine ⟨fun d bufA bufB hmode hd hA hB => ?whole, fun hguard => ?hold⟩
  case whole =>
    exact ⟨_, _, execMthRecompute_of_live hmode hd hA hB, rfl, desc_setDesc_self s id _,
      fun _ hne => desc_setDesc_other s _ hne, pointwise_length d.ctl bufA bufB, fun _ _ _ => pointwise_getElem? d.ctl⟩
  case hold =>
    cases hmode : s.cfg.recomputeAtomic with
    | false => exact ⟨_, execMthRecompute_of_elementwise id hmode⟩
    | true => exact ⟨_, execMthRecompute_of_dead hmode (by simpa [hmode] using hguard)⟩

/-- Settles O41: both operands of an element are the one channel's element of its index. -/
theorem sameChannelResults : Obligations.SameChannelResults := by
  refine ⟨applyCtl_self, fun s id d xs hmode hd hab hA => ?_⟩
  refine ⟨_, _, execMthRecompute_of_live hmode hd hA (hab ▸ hA), desc_setDesc_self s id _, ?_, fun i x hx => ?_⟩
  · rw [pointwise_length, min_self]
  · rw [pointwise_getElem? d.ctl hx hx, applyCtl_self]

/-! ### Non-atomic recompute -/

theorem execMthBegin_of_atomic {s : State} (id : Nat) (hmode : s.cfg.recomputeAtomic = true) :
    exec (.mthBegin id) s = .fault (.noStep .recomputeIsAtomic) :=
  if_pos hmode

theorem execMthBegin_of_dead {s : State} {id : Nat} (hmode : s.cfg.recomputeAtomic = false) (hd : s.desc id = none) :
    exec (.mthBegin id) s = .fault (.noStep .channelNotLive) := by
  simp [exec, execMthBegin, hold, hmode, hd]

theorem execMthBegin_of_inFlight {s : State} {id : Nat} {d : Descriptor} {w : Nat × List XVal}
    (hmode : s.cfg.recomputeAtomic = false) (hd : s.desc id = some d) (hw : d.work = some w) :
    exec (.mthBegin id) s = .fault (.noStep .recomputeInFlight) := by
  simp [exec, execMthBegin, hold, hmode, hd, hw]

/-- Settles O42: the start writes the one descriptor; it holds under the atomic parameter, for a dead id and in flight. -/
theorem beginStartsRecompute : Obligations.BeginStartsRecompute := by
  intro s id
  refine ⟨fun d hmode hd hw => ?start, fun hguard => ?hold, decodeLabel_of_toLabel rfl⟩
  case start =>
    exact ⟨_, execMthBegin_of_idle hmode hd hw, rfl, desc_setDesc_self s id _,
      fun _ hne => desc_setDesc_other s _ hne⟩
  case hold =>
    cases hmode : s.cfg.recomputeAtomic with
    | true => exact ⟨_, execMthBegin_of_atomic id hmode⟩
    | false =>
      obtain hatomic | hd | ⟨d, w, hd, hw⟩ := hguard
      · simp [hmode] at hatomic
      · exact ⟨_, execMthBegin_of_dead hmode hd⟩
      · exact ⟨_, execMthBegin_of_inFlight hmode hd hw⟩

theorem execMthElem_of_atomic {s : State} (id : Nat) (hmode : s.cfg.recomputeAtomic = true) :
    exec (.mthElem id) s = .fault (.noStep .recomputeIsAtomic) :=
  if_pos hmode

theorem execMthElem_of_dead {s : State} {id : Nat} (hmode : s.cfg.recomputeAtomic = false) (hd : s.desc id = none) :
    exec (.mthElem id) s = .fault (.noStep .channelNotLive) := by
  simp [exec, execMthElem, hold, hmode, hd]

theorem execMthElem_of_idle {s : State} {id : Nat} {d : Descriptor} (hmode : s.cfg.recomputeAtomic = false)
    (hd : s.desc id = some d) (hw : d.work = none) :
    exec (.mthElem id) s = .fault (.noStep .noRecomputeInFlight) := by
  simp [exec, execMthElem, hold, hmode, hd, hw]

/-- Settles O43: the index is below the overlap, where both buffers have its element, or at or past the overlap. -/
theorem elementStepComputesOrFinishes : Obligations.ElementStepComputesOrFinishes := by
  intro s id
  refine ⟨fun i d acc bufA bufB hmode hd hw hA hB => ?step, execMthElem_of_atomic id, execMthElem_of_dead,
    fun d => execMthElem_of_idle⟩
  case step =>
    have ho := operandBuffers_eq_some_iff.mpr ⟨hA, hB⟩
    by_cases hi : i < min bufA.length bufB.length
    · obtain ⟨hiA, hiB⟩ := lt_min_iff.mp hi
      have hx := List.getElem?_eq_getElem hiA
      have hy := List.getElem?_eq_getElem hiB
      refine ⟨_, execMthElem_of_element hmode hd hw ho hx hy, rfl, fun _ hne => desc_setDesc_other s _ hne,
        fun x y hx' hy' => ?_, fun hge => absurd hi hge.not_gt⟩
      rw [desc_setDesc_self, Option.some.inj (hx.symm.trans hx'), Option.some.inj (hy.symm.trans hy')]
    · refine ⟨_, execMthElem_of_overlap_le hmode hd hw ho (not_lt.mp hi), rfl,
        fun _ hne => desc_setDesc_other s _ hne, fun x y hx hy => absurd (lt_min ?_ ?_) hi,
        fun _ => desc_setDesc_self s id _⟩
      · exact (List.getElem?_eq_some_iff.mp hx).1
      · exact (List.getElem?_eq_some_iff.mp hy).1

/-! ### The length of a recompute in flight -/

section InFlight

variable {i : Instr} {s t : State} {id : Nat} {d e : Descriptor} {w w' : Nat × List XVal}
  (hd : s.desc id = some d) (hw : d.work = some w) (he : t.desc id = some e)
include hd hw he

/-- An element step that does not end the recompute advances its index by one (R217). -/
theorem execMthElem_work_index (h : execMthElem id s = .next t) (hw' : e.work = some w') : w'.1 = w.1 + 1 := by
  obtain ⟨_, d', j, acc, bufA, bufB, hd', hj, _, hstep⟩ := execMthElem_next h
  obtain rfl : d = d' := by simpa [hd] using hd'
  obtain rfl : w = (j, acc) := by simpa [hw] using hj
  obtain ⟨x, y, _, _, rfl⟩ | ⟨_, rfl⟩ := hstep
  · obtain rfl : _ = e := by simpa using he
    obtain rfl : _ = w' := by simpa using hw'
    rfl
  · obtain rfl : _ = e := by simpa using he
    cases hw'

/-- Between its element steps a recompute in flight stays as it is while its channel lives: a start and a deletion of the
channel hold, and a restart removes it (R212, R215, R216). -/
theorem exec_keeps_work (hinv : s.Inv) (h : exec i s = .next t) (helem : i ≠ .mthElem id) : e.work = d.work := by
  by_cases hrecompute : i = .mthRecompute id
  · subst hrecompute
    obtain ⟨_, d', bufA, bufB, hd', _, rfl⟩ := execMthRecompute_next h
    obtain rfl : d = d' := by simpa [hd] using hd'
    obtain rfl : _ = e := by simpa using he
    rfl
  have hbegin : i ≠ .mthBegin id := by
    rintro rfl
    obtain ⟨hmode, _⟩ := execMthBegin_next h
    rw [execMthBegin_of_inFlight hmode hd hw] at h
    cases h
  have hdelete : i ≠ .mthDelete id := by
    rintro rfl
    rw [execMthDelete_of_inFlight hd hw] at h
    cases h
  have hrst : i ≠ .rstHost := by
    rintro rfl
    obtain rfl := execRstHost_next h
    cases he
  obtain ⟨_, hlt, _⟩ := hinv.of_desc hd
  obtain ⟨-, -, -, -, -, -, -, -, hframe, -⟩ := accessTableFrames i s t h
  rw [hframe id (fun _ _ _ _ => hlt.ne) hdelete hrecompute hbegin helem hrst, hd] at he
  rw [Option.some.inj he]

/-- A step that leaves a recompute in flight adds one to its index if it is an element step of the channel, else nothing. -/
theorem exec_work_index (hinv : s.Inv) (h : exec i s = .next t) (hw' : e.work = some w') :
    w'.1 = w.1 + [i].count (.mthElem id) := by
  by_cases helem : i = .mthElem id
  · subst helem
    rw [execMthElem_work_index hd hw he h hw', List.count_singleton_self]
  · rw [exec_keeps_work hd hw he hinv h helem, hw] at hw'
    rw [List.count_singleton, if_neg (by simpa using helem), Option.some.inj hw', Nat.add_zero]

end InFlight

/-- Over a run that leaves a recompute in flight its index, which starts at `w.1`, rises with each element step, and the
invariant bounds it (R35, R217). -/
theorem work_index_add_count_le {ops : List Instr} {s : State} {id : Nat} {d : Descriptor} {w : Nat × List XVal}
    (hinv : s.Inv) (hd : s.desc id = some d) (hw : d.work = some w)
    (hflight : ∀ n ≤ ops.length, ∃ u d w, runOps (ops.take n) s = some u ∧ u.desc id = some d ∧ d.work = some w) :
    w.1 + ops.count (.mthElem id) ≤ s.cfg.sampleBufferDepth := by
  induction ops generalizing s d w with
  | nil =>
    obtain ⟨_, _, _, _, _, _, hwork⟩ := hinv.of_desc hd
    obtain ⟨_, hle, _⟩ := hwork w.1 w.2 hw
    simpa using hle
  | cons i ops ih =>
    obtain ⟨t, e, w', hrun, he, hw'⟩ := hflight 1 (by simp)
    obtain ⟨t', hexec, ht⟩ := runOps_cons_eq_some hrun
    obtain rfl : t' = t := Option.some.inj ht
    have hrest := ih (hinv.exec hexec) he hw' fun n hn => by
      obtain ⟨u, f, v, hu, hf⟩ := hflight (n + 1) (Nat.succ_le_succ hn)
      exact ⟨u, f, v, by rwa [List.take_succ_cons, runOps_cons hexec] at hu, hf⟩
    rw [exec_work_index hd hw he hinv hexec hw', exec_keeps_cfg hexec] at hrest
    rw [← List.singleton_append, List.count_append]
    omega

/-- Settles O45: the index of the recompute counts the element steps. -/
theorem elementStepsAreBounded : Obligations.ElementStepsAreBounded := by
  intro ops s id hinv hflight
  obtain ⟨u, d, w, hu, hd, hw⟩ := hflight 0 (Nat.zero_le _)
  obtain rfl : s = u := Option.some.inj hu
  have hbound := work_index_add_count_le hinv hd hw hflight
  omega

end Sys2Proof.Machine
end

section
/-!
The outcomes of an operation and of a step (R250 to R263): a next state, a hold where a guard fails, or the refusal of a label; and
the reply an operation leaves. The firmware's two operations come first, since their guards exclude each other.
-/

namespace Sys2Proof.Machine

/-! ### The firmware -/

/-- At loop position 4 every slot is written, so the group has its packet (R22, R122). -/
theorem Firmware.wf.exists_group {fw : Firmware} (h : fw.wf) (hk : fw.k = 4) : ∃ q, groupOf fw.acc = some q := by
  obtain ⟨_, hslots⟩ := h
  have hwritten (j : Nat) (hj : j < 4) : ∃ c, fw.acc[j] = some c := by
    rw [← Option.isSome_iff_exists]
    exact (hslots ⟨j, hj⟩).trans (by simp [hk, hj])
  obtain ⟨s0, h0⟩ := hwritten 0 (by decide)
  obtain ⟨s1, h1⟩ := hwritten 1 (by decide)
  obtain ⟨s2, h2⟩ := hwritten 2 (by decide)
  obtain ⟨s3, h3⟩ := hwritten 3 (by decide)
  exact ⟨⟨s0, s1, s2, s3⟩, by simp [groupOf, h0, h1, h2, h3]⟩

/-- Where the loop position is 4 the emission has a step (R120). -/
theorem exists_execSmpEmit {s : State} (hinv : s.Inv) (hk : s.fw.k = 4) : ∃ t, exec .smpEmit s = .next t := by
  obtain ⟨_, hfw, _⟩ := hinv
  obtain ⟨q, hq⟩ := hfw.exists_group hk
  exact ⟨_, execSmpEmit_of_group hk hq⟩

/-- Settles O15: the loop position is below 4, where only the conversion has a step, or 4, where only the emission has. -/
theorem firmwareHasExactlyOneStep : Obligations.FirmwareHasExactlyOneStep := by
  intro s v hinv
  have ⟨_, ⟨hle, _⟩, _⟩ := hinv
  obtain hk | hk := hle.lt_or_eq
  · refine .inl ⟨⟨_, execSmpConvert_of_lt v hk⟩, fun t ht => ?_⟩
    obtain ⟨hfull, _⟩ := execSmpEmit_next ht
    exact hk.ne hfull
  · refine .inr ⟨exists_execSmpEmit hinv hk, fun t ht => ?_⟩
    obtain ⟨hlt, _⟩ := execSmpConvert_next ht
    exact hlt.ne hk

/-! ### No operation faults -/

/-- The operands of a live channel are physical, so their buffers exist (R33). -/
theorem State.Inv.exists_physBufs {s : State} (hinv : s.Inv) {id : Nat} {d : Descriptor} (hd : s.desc id = some d) :
    ∃ bufA bufB, s.physBuf d.a = some bufA ∧ s.physBuf d.b = some bufB := by
  obtain ⟨_, _, _, ha, hb, _⟩ := hinv.of_desc hd
  exact ⟨_, _, physBuf_of_lt s ha, physBuf_of_lt s hb⟩

/-- A creation has no guard: it replies in every state (R211, R256). -/
theorem exists_execMthCreate (ctl : Ctl) (a b : Nat) (s : State) : ∃ t, exec (.mthCreate ctl a b) s = .next t := by
  simp only [exec, execMthCreate]
  split_ifs <;> exact ⟨_, rfl⟩

theorem execMthDelete_next_or_hold (id : Nat) (s : State) :
    (∃ t, exec (.mthDelete id) s = .next t) ∨ ∃ why, exec (.mthDelete id) s = .fault (.noStep why) := by
  cases hd : s.desc id with
  | none => exact .inl ⟨_, execMthDelete_of_dead hd⟩
  | some d =>
    cases hw : d.work with
    | none => exact .inl ⟨_, execMthDelete_of_idle hd hw⟩
    | some w => exact .inr ⟨_, execMthDelete_of_inFlight hd hw⟩

theorem execMthRecompute_next_or_hold {s : State} (hinv : s.Inv) (id : Nat) :
    (∃ t, exec (.mthRecompute id) s = .next t) ∨ ∃ why, exec (.mthRecompute id) s = .fault (.noStep why) := by
  cases hmode : s.cfg.recomputeAtomic with
  | false => exact .inr ⟨_, execMthRecompute_of_elementwise id hmode⟩
  | true =>
    cases hd : s.desc id with
    | none => exact .inr ⟨_, execMthRecompute_of_dead hmode hd⟩
    | some d =>
      obtain ⟨bufA, bufB, hA, hB⟩ := hinv.exists_physBufs hd
      exact .inl ⟨_, execMthRecompute_of_live hmode hd hA hB⟩

theorem execMthBegin_next_or_hold (id : Nat) (s : State) :
    (∃ t, exec (.mthBegin id) s = .next t) ∨ ∃ why, exec (.mthBegin id) s = .fault (.noStep why) := by
  cases hmode : s.cfg.recomputeAtomic with
  | true => exact .inr ⟨_, execMthBegin_of_atomic id hmode⟩
  | false =>
    cases hd : s.desc id with
    | none => exact .inr ⟨_, execMthBegin_of_dead hmode hd⟩
    | some d =>
      cases hw : d.work with
      | none => exact .inl ⟨_, execMthBegin_of_idle hmode hd hw⟩
      | some w => exact .inr ⟨_, execMthBegin_of_inFlight hmode hd hw⟩

theorem execMthElem_next_or_hold {s : State} (hinv : s.Inv) (id : Nat) :
    (∃ t, exec (.mthElem id) s = .next t) ∨ ∃ why, exec (.mthElem id) s = .fault (.noStep why) := by
  cases hmode : s.cfg.recomputeAtomic with
  | true => exact .inr ⟨_, execMthElem_of_atomic id hmode⟩
  | false =>
    cases hd : s.desc id with
    | none => exact .inr ⟨_, execMthElem_of_dead hmode hd⟩
    | some d =>
      cases hw : d.work with
      | none => exact .inr ⟨_, execMthElem_of_idle hmode hd hw⟩
      | some w =>
        obtain ⟨bufA, bufB, hA, hB⟩ := hinv.exists_physBufs hd
        obtain ⟨hstep, -⟩ := elementStepComputesOrFinishes s id
        obtain ⟨t, ht, -⟩ := hstep w.1 d w.2 bufA bufB hmode hd hw hA hB
        exact .inl ⟨t, ht⟩

/-- Settles O47: each guard holds or fails; by the invariant an emission finds its slots written and a recompute its buffers. -/
theorem noOperationFaults : Obligations.NoOperationFaults := by
  intro i s hinv
  cases i with
  | smpConvert v =>
    by_cases hk : s.fw.k < 4
    · exact .inl ⟨_, execSmpConvert_of_lt v hk⟩
    · exact .inr ⟨_, execSmpConvert_of_full v hk⟩
  | smpEmit =>
    by_cases hk : s.fw.k = 4
    · exact .inl (exists_execSmpEmit hinv hk)
    · exact .inr ⟨_, execSmpEmit_of_not_full hk⟩
  | lnkDrop =>
    cases hw : s.wire with
    | nil => exact .inr ⟨_, execLnkDrop_of_nil hw⟩
    | cons b rest => exact .inl ⟨_, execLnkDrop_of_cons hw⟩
  | lnkDown =>
    cases hup : s.linkUp with
    | true => exact .inl ⟨_, execLnkDown_of_up hup⟩
    | false => exact .inr ⟨_, execLnkDown_of_down hup⟩
  | lnkUp =>
    cases hup : s.linkUp with
    | true => exact .inr ⟨_, execLnkUp_of_up hup⟩
    | false => exact .inl ⟨_, execLnkUp_of_down hup⟩
  | decIngest | decUnpack | decSlip => exact exec_hostReader_next_or_hold rfl s
  | decPush =>
    cases hq : s.dec.queue with
    | nil => exact .inr ⟨_, execDecPush_of_nil hq⟩
    | cons c rest => exact .inl ⟨_, execDecPush_of_cons hq⟩
  | mthCreate ctl a b => exact .inl (exists_execMthCreate ctl a b s)
  | mthDelete id => exact execMthDelete_next_or_hold id s
  | mthRecompute id => exact execMthRecompute_next_or_hold hinv id
  | mthBegin id => exact execMthBegin_next_or_hold id s
  | mthElem id => exact execMthElem_next_or_hold hinv id
  | envFeed | rstFw | rstHost | add | subAB | subBA | mul | divAB | divBA => exact .inl ⟨_, rfl⟩

/-! ### The reply -/

/-- Only a link loss and the two configuration operations write the reply (R251, R252; log entry 6). -/
theorem exec_keeps_reply {i : Instr} {s t : State} (h : exec i s = .next t) (hdown : i ≠ .lnkDown)
    (hcreate : ∀ ctl a b, i ≠ .mthCreate ctl a b) (hdelete : ∀ id, i ≠ .mthDelete id) : t.reply = s.reply := by
  cases i with
  | smpConvert v => obtain ⟨_, rfl⟩ := execSmpConvert_next h; rfl
  | smpEmit => obtain ⟨_, q, _, rfl⟩ := execSmpEmit_next h; simp [transmit_eq_setWire]
  | lnkDrop => obtain ⟨b, rest, _, rfl⟩ := execLnkDrop_next h; rfl
  | lnkDown => exact absurd rfl hdown
  | lnkUp => obtain ⟨_, rfl⟩ := execLnkUp_next h; rfl
  | decIngest => obtain ⟨_, _, b, rest, _, rfl⟩ := execDecIngest_next h; rfl
  | decUnpack => obtain ⟨b0, b1, b2, b3, b4, _, _, rfl⟩ := execDecUnpack_next h; rfl
  | decSlip => obtain ⟨_, _, rfl⟩ := execDecSlip_next h; rfl
  | decPush => obtain ⟨c, rest, _, rfl⟩ := execDecPush_next h; rfl
  | envFeed v => obtain rfl := execEnvFeed_next h; rfl
  | mthCreate ctl a b => exact absurd rfl (hcreate ctl a b)
  | mthDelete id => exact absurd rfl (hdelete id)
  | mthRecompute id | mthBegin id | mthElem id =>
    obtain ⟨d, e, _, _, rfl⟩ := exec_recompute_next (id := id) (by simp) h
    rfl
  | rstFw => obtain rfl := execRstFw_next h; rfl
  | rstHost => obtain rfl := execRstHost_next h; rfl
  | add | subAB | subBA | mul | divAB | divBA => obtain ⟨x, rfl⟩ := exec_operator_next rfl h; rfl

/-- A configuration operation rejects, with only the reply written, or replies OK (R251, R252). -/
theorem exec_configuration_next {i : Instr} {s t : State}
    (hi : (∃ ctl a b, i = .mthCreate ctl a b) ∨ ∃ id, i = .mthDelete id) (h : exec i s = .next t) :
    (∃ st, st.isRejection = true ∧ t = s.answer st) ∨ ∃ id, t.reply = some (.ok id) := by
  obtain ⟨ctl, a, b, rfl⟩ | ⟨id, rfl⟩ := hi
  · obtain ⟨st, hst, ht⟩ | ⟨_, _, _, _, _, rfl⟩ := execMthCreate_next h
    · exact .inl ⟨st, by obtain rfl | rfl | rfl := hst <;> rfl, ht⟩
    · exact .inr ⟨_, rfl⟩
  · obtain ⟨_, ht⟩ | ⟨d, _, _, rfl⟩ := execMthDelete_next h
    · exact .inl ⟨_, rfl, ht⟩
    · exact .inr ⟨_, rfl⟩

/-- Settles O46: the reply is a link loss's report, a configuration operation's status, or as it was before, which is none. -/
theorem rejectionLeavesStateUnchanged : Obligations.RejectionLeavesStateUnchanged := by
  refine ⟨⟨fun _ => rfl, rfl, rfl, rfl, rfl, rfl⟩, fun i s t st hnone h hreply => ?_⟩
  by_cases hdown : i = .lnkDown
  · subst hdown
    obtain ⟨_, rfl⟩ := execLnkDown_next h
    obtain rfl : .linkLost = st := by simpa using hreply
    exact ⟨nofun, nofun, fun _ => rfl, nofun⟩
  by_cases hconf : (∃ ctl a b, i = .mthCreate ctl a b) ∨ ∃ id, i = .mthDelete id
  · obtain ⟨st', hrejects, rfl⟩ | ⟨id, hok⟩ := exec_configuration_next hconf h
    · obtain rfl : st' = st := by simpa using hreply
      exact ⟨fun _ => rfl, fun _ => hconf, (by rintro rfl; cases hrejects), (by rintro rfl; cases hrejects)⟩
    · obtain rfl : .ok id = st := by simpa [hok] using hreply
      exact ⟨nofun, fun _ => hconf, nofun, nofun⟩
  · have hkept := exec_keeps_reply h hdown (fun ctl a b hi => hconf (.inl ⟨ctl, a, b, hi⟩))
      (fun id hi => hconf (.inr ⟨id, hi⟩))
    simp [hkept, hnone] at hreply

/-! ### Refusal -/

/-- A step is refused exactly at a refused front, since no operation refuses (R261). -/
theorem step_eq_refused_iff {s : State} {x : Refusal} :
    step s = .refused x ↔ ∃ r, x = .rejected r ∧ frontRefused s.sched r := by
  refine ⟨fun h => ?_, fun ⟨r, hx, hr⟩ => hx ▸ step_of_frontRefused hr⟩
  cases hd : decodeSlots s.sched with
  | none => simp [step, fetch, hold, hd] at h
  | some front =>
    cases front with
    | error r =>
      rw [step_of_decodeSlots_error hd] at h
      cases h
      exact ⟨r, rfl, (decodeSlots_error_iff s.sched r).mp hd⟩
    | ok p =>
      rw [step_of_decodeSlots_ok hd] at h
      exact absurd h (exec_not_refused _ _ _)

/-- A run that comes to a state goes on as a run from that state. -/
theorem run_add {M : Host.Core} {k : Nat} {s t : M.State} (h : M.run k s = .next t) (m : Nat) :
    M.run (k + m) s = M.run m t := by
  induction k generalizing s with
  | zero => cases h; rw [Nat.zero_add]
  | succ k ih =>
    rw [Nat.succ_add]
    simp only [Host.Core.run] at h ⊢
    split at h
    · next u hu => simpa only [hu] using ih h
    · cases h
    · cases h

theorem run_succ_of_refused {M : Host.Core} {s : M.State} {x : M.Refusal} (h : M.step s = .refused x) (m : Nat) :
    M.run (m + 1) s = .refused x := by
  simp [Host.Core.run, h]

/-- Settles O48: the front decides a step, and the run's next step is the one at the state it came to. -/
theorem stepRefusesExactlyRefusedEntries : Obligations.StepRefusesExactlyRefusedEntries := by
  refine ⟨fun s r => ⟨fun h => ?_, step_of_frontRefused⟩, fun s x h => ?_, fun k n s t r hrun hfront hlt => ?_⟩
  · obtain ⟨r', hr', hfront⟩ := step_eq_refused_iff.mp h
    cases hr'
    exact hfront
  · obtain ⟨r, hr, _⟩ := step_eq_refused_iff.mp h
    exact ⟨r, hr⟩
  · obtain ⟨m, rfl⟩ := Nat.exists_eq_add_of_lt hlt
    rw [Nat.add_assoc, run_add hrun]
    exact run_succ_of_refused (step_of_frontRefused hfront) m

end Sys2Proof.Machine
end

section
/-!
Power-on and the two restarts (R280 to R284): the state they give, and that power-on is quiescent, an aligned start and within the
invariant.
-/

namespace Sys2Proof.Machine

/-! ### Power-on -/

/-- With nothing converted, in flight or queued and no derived channel, nothing is left to do (R263). -/
theorem State.quiescent_of_empty {s : State} (hk : s.fw.k = 0) (hwire : s.wire = []) (hasm : s.dec.asm = [])
    (hqueue : s.dec.queue = []) (hderived : s.ch.derived = []) : s.quiescent = true := by
  simp [State.quiescent, hk, hwire, hasm, hqueue, hderived]

/-- An empty window before an empty wire is at a packet boundary (R284). -/
theorem State.alignedStart_of_empty {s : State} (hasm : s.dec.asm = []) (hwire : s.wire = []) :
    s.alignedStart = true := by
  simp [State.alignedStart, State.misalignment, hasm, hwire]

/-- Settles O49: each field is read off the definitions, and empty sequences are quiescent and aligned. -/
theorem powerOnState : Obligations.PowerOnState := by
  have hquiescent : State.reset.quiescent = true := State.quiescent_of_empty rfl rfl rfl rfl rfl
  have haligned : State.reset.alignedStart = true := State.alignedStart_of_empty rfl rfl
  exact ⟨rfl, rfl, rfl, rfl, rfl, rfl, rfl, rfl, rfl, rfl, rfl, rfl, rfl, rfl, hquiescent, haligned⟩

/-- The depths of the launch configuration are successors, whatever the open constants are, and its rate is the wire's (R10, R11). -/
theorem launch_wf : Config.launch.wf :=
  ⟨Nat.succ_pos _, Nat.succ_pos _, rfl⟩

/-- The empty channel store is well-formed under every configuration (R30 to R36). -/
theorem Channels.reset_wf (cfg : Config) : Channels.reset.wf cfg := by
  have hphys : ∀ p : Fin 2, Channels.reset.phys[p].length ≤ cfg.sampleBufferDepth :=
    Fin.forall_fin_two.mpr ⟨Nat.zero_le _, Nat.zero_le _⟩
  exact ⟨hphys, List.Pairwise.nil, Nat.zero_le _, le_rfl, nofun⟩

/-- Settles O52: the parts of the power-on state are well-formed, and its wire, window and queue are empty. -/
theorem powerOnMeetsInvariant : Obligations.PowerOnMeetsInvariant :=
  ⟨launch_wf, Firmware.reset_wf, fun _ => rfl, Nat.zero_le _, Nat.zero_le _, Channels.reset_wf _⟩

/-! ### The two restarts -/

/-- Settles O50: the restart has no guard and writes the firmware alone. -/
theorem firmwareRestart : Obligations.FirmwareRestart :=
  ⟨fun _ => rfl, rfl⟩

/-- Settles O51: the restart has no guard and writes the decoder and the channel store alone. -/
theorem hostRestart : Obligations.HostRestart :=
  ⟨fun _ => rfl, rfl⟩

end Sys2Proof.Machine
end
